-- ==== Sys2Proof/Word.lean ====
section
/-! DEFINITION. The two word widths of the core (spec/00_scope.md R7: DATA_W = 8, ADDR_W = 4). -/

namespace Sys2Proof

/-- An 8-bit value: the bus, a memory cell, A, B, OUT, IR and an instruction (R7, R34). -/
abbrev Byte := BitVec 8

/-- A 4-bit value: an address, the program counter, an opcode or an operand (R7, R30, R47). -/
abbrev Nibble := BitVec 4

end Sys2Proof
end

