-- ==== Sys2Proof/Syntax.lean ====
section
/-! DEFINITION. The instructions: one constructor for each row of spec/opcode_table.json (spec/30_encoding.md R49),
and the statements of the spec's assembly syntax (R56), whose operands are numbers not yet checked (R55). -/

namespace Sys2Proof

/-- The 16 rows of the opcode map (R49). Every constructor keeps the operand nibble (R47), ignored (`x`) or not,
because IR holds the whole byte and the host can read it (R14, R26). -/
inductive Instr where
  /-- 0x0, no-op (R93); the operand is ignored. -/
  | nop (x : Nibble)
  /-- 0x1, load-A (R81). -/
  | lda (addr : Nibble)
  /-- 0x2, add (R87). -/
  | add (addr : Nibble)
  /-- 0x3, subtract (R88). -/
  | sub (addr : Nibble)
  /-- 0x4, store-A (R82). -/
  | sta (addr : Nibble)
  /-- 0x5, load-immediate (R83). -/
  | ldi (imm : Nibble)
  /-- 0x6, jump (R90). -/
  | jmp (addr : Nibble)
  /-- 0x7, jump-if-carry (R91). -/
  | jc (addr : Nibble)
  /-- 0x8, jump-if-zero (R92). -/
  | jz (addr : Nibble)
  /-- 0x9, unrecognised, a defined no-op (R50, R94). -/
  | unrecognised9 (x : Nibble)
  /-- 0xA, unrecognised, a defined no-op (R50, R94). -/
  | unrecognisedA (x : Nibble)
  /-- 0xB, unrecognised, a defined no-op (R50, R94). -/
  | unrecognisedB (x : Nibble)
  /-- 0xC, unrecognised, a defined no-op (R50, R94). -/
  | unrecognisedC (x : Nibble)
  /-- 0xD, unrecognised, a defined no-op (R50, R94). -/
  | unrecognisedD (x : Nibble)
  /-- 0xE, output (R95); the operand is ignored. -/
  | out (x : Nibble)
  /-- 0xF, halt (R96); the operand is ignored. -/
  | hlt (x : Nibble)
  deriving DecidableEq, Repr

/-- A statement of the spec's own assembly syntax (R56), labels already resolved. The operand is a plain number, so
that the range rule of R55 has something to refuse. -/
inductive SourceLine where
  | nop
  | lda (n : Nat)
  | add (n : Nat)
  | sub (n : Nat)
  | sta (n : Nat)
  | ldi (n : Nat)
  | jmp (n : Nat)
  | jc (n : Nat)
  | jz (n : Nat)
  | out
  | hlt
  /-- `DATA v`: a raw byte in the next cell. -/
  | data (v : Nat)
  deriving DecidableEq, Repr

end Sys2Proof
end

