-- ==== Sys2Proof/WellFormed.lean ====
section
/-! DEFINITION. The checks on syntax (spec/30_encoding.md R55, R56). -/

namespace Sys2Proof

/-- The operand nibble of an instruction, whatever it means (R47, R48). -/
def Instr.operand : Instr → Nibble
  | .nop x | .lda x | .add x | .sub x | .sta x | .ldi x | .jmp x | .jc x | .jz x
  | .unrecognised9 x | .unrecognisedA x | .unrecognisedB x | .unrecognisedC x | .unrecognisedD x
  | .out x | .hlt x => x

/-- "An immediate or address operand must lie in 0..15" (R55). -/
def operandInRange (n : Nat) : Bool := decide (n ≤ 15)

/-- An instruction is well-formed where its operand is in range. The operand field has 4 bits, so every `Instr` is:
"The core itself cannot see an out-of-range operand" (R55). -/
def Instr.wf (i : Instr) : Bool := operandInRange i.operand.toNat

/-- The operand ranges of the assembly syntax: 0..15 for an address or an immediate, 0..255 for DATA (R55, R56). -/
def SourceLine.wf : SourceLine → Bool
  | .nop | .out | .hlt => true
  | .lda n | .add n | .sub n | .sta n | .ldi n | .jmp n | .jc n | .jz n => operandInRange n
  | .data v => decide (v ≤ 255)

end Sys2Proof
end

