-- ==== Sys2Proof/Decode.lean ====
section
/-! DEFINITION. The encoding of spec/30_encoding.md: the decoder, total on every byte (R49, R50), the encoder after
it, and the assembler's output contract (R54 to R56). -/

namespace Sys2Proof

/-- `op` = bits 7..4 of an instruction byte (R47). -/
def opcodeOf (b : Byte) : Nibble := b.extractLsb' 4 4

/-- `opnd` = bits 3..0 of an instruction byte (R47). -/
def operandOf (b : Byte) : Nibble := b.extractLsb' 0 4

/-- The byte with high nibble `hi` and low nibble `lo` (R47). -/
def joinNibbles (hi lo : Nibble) : Byte := (hi ++ lo : BitVec (4 + 4))

/-- Why a sequence of bytes holds no instruction. No byte is an illegal instruction (R50). -/
inductive DecodeError where
  /-- There is no byte to decode. Safe: an instruction is one byte (R47), and memory always has one. -/
  | noByte
  deriving DecidableEq, Repr

/-- The opcode map (R49). Every one of the 256 byte values decodes (R50); the last arm is 0xF, the one value left. -/
def decode (b : Byte) : Instr :=
  match opcodeOf b with
  | 0x0#4 => .nop (operandOf b)
  | 0x1#4 => .lda (operandOf b)
  | 0x2#4 => .add (operandOf b)
  | 0x3#4 => .sub (operandOf b)
  | 0x4#4 => .sta (operandOf b)
  | 0x5#4 => .ldi (operandOf b)
  | 0x6#4 => .jmp (operandOf b)
  | 0x7#4 => .jc (operandOf b)
  | 0x8#4 => .jz (operandOf b)
  | 0x9#4 => .unrecognised9 (operandOf b)
  | 0xA#4 => .unrecognisedA (operandOf b)
  | 0xB#4 => .unrecognisedB (operandOf b)
  | 0xC#4 => .unrecognisedC (operandOf b)
  | 0xD#4 => .unrecognisedD (operandOf b)
  | 0xE#4 => .out (operandOf b)
  | _ => .hlt (operandOf b)

/-- One instruction from the front of a sequence of bytes, with the rest. Every instruction is one byte (R51). -/
def decodeBytes : List Byte → Except DecodeError (Instr × List Byte)
  | [] => .error .noByte
  | b :: rest => .ok (decode b, rest)

/-- The byte of an instruction whose bits are `w`, of which the table gives `nbits`; every bit above them is 0. The
longest instruction is one byte (R51). -/
def tableByte (nbits w : Nat) : Byte := BitVec.ofNat 8 (w % 2 ^ nbits)

/-- The instruction the decoder reads from the table word `w` of `nbits` bits. -/
def decodeTableWord (nbits w : Nat) : Option Instr :=
  match decodeBytes [tableByte nbits w] with
  | .ok (i, _) => some i
  | .error _ => none

/-- The opcode of each row of the map (R49). -/
def Instr.opcode : Instr → Nibble
  | .nop _ => 0x0
  | .lda _ => 0x1
  | .add _ => 0x2
  | .sub _ => 0x3
  | .sta _ => 0x4
  | .ldi _ => 0x5
  | .jmp _ => 0x6
  | .jc _ => 0x7
  | .jz _ => 0x8
  | .unrecognised9 _ => 0x9
  | .unrecognisedA _ => 0xA
  | .unrecognisedB _ => 0xB
  | .unrecognisedC _ => 0xC
  | .unrecognisedD _ => 0xD
  | .out _ => 0xE
  | .hlt _ => 0xF

/-- The byte of an instruction: the opcode in the high nibble, the operand in the low one (R47, R49). -/
def encode (i : Instr) : Byte := joinNibbles i.opcode i.operand

/-- The cell an assembly statement fills, or none where its operand is out of range: it "must fail at the assembler
boundary, not silently wrap" (R55). NOP, OUT and HLT assemble with operand 0 (R56). -/
def assemble (l : SourceLine) : Option Byte :=
  if l.wf then
    match l with
    | .nop => some (encode (.nop 0))
    | .lda n => some (encode (.lda (BitVec.ofNat 4 n)))
    | .add n => some (encode (.add (BitVec.ofNat 4 n)))
    | .sub n => some (encode (.sub (BitVec.ofNat 4 n)))
    | .sta n => some (encode (.sta (BitVec.ofNat 4 n)))
    | .ldi n => some (encode (.ldi (BitVec.ofNat 4 n)))
    | .jmp n => some (encode (.jmp (BitVec.ofNat 4 n)))
    | .jc n => some (encode (.jc (BitVec.ofNat 4 n)))
    | .jz n => some (encode (.jz (BitVec.ofNat 4 n)))
    | .out => some (encode (.out 0))
    | .hlt => some (encode (.hlt 0))
    | .data v => some (BitVec.ofNat 8 v)
  else none

end Sys2Proof
end

