-- ==== Sys2Proof/Config.lean ====
section
/-! DEFINITION. The named instantiation of the open parameters of spec/00_scope.md R8 (POWER_ON, with its parts
MEM_INIT and BUS_INIT) that `State.reset` uses. R27: a model takes them as draws "and must not fix them, except as a
named instantiation". Every statement over an arbitrary state ranges over all of them; only `State.reset`, and what
an unlisted memory cell reads as, use the values below. -/

namespace Sys2Proof

/-- MEM_INIT (R27, 92 D9): what a cell that neither `load_memory` nor STA has written reads as.
DESIGN CHOICE, unsafe (log 4): the spec leaves it open ("no implicit zero-fill"). -/
def Config.memInit : Byte := 0

/-- BUS_INIT (R11, 92 D21): the bus before any board has driven it. DESIGN CHOICE, unsafe (log 3). -/
def Config.busInit : Byte := 0

/-- `clk0` of R28: the clock level before the reset, which the reset leaves in place.
DESIGN CHOICE, unsafe (log 2): 92 D22 instantiates it so for its test vectors. -/
def Config.clkInit : Bool := false

end Sys2Proof
end

