-- ==== Sys2Proof/Machine/State.lean ====
section
/-! DEFINITION. The complete state of the core (spec/10_state.md R9), as plain data, and the state after reset
(R28). -/

namespace Sys2Proof.Machine

/-- The 15 pulse signals of the control-signal vector (R22), under the spec's short names. The two latches HLT and
CLR of R22 are `State.halt` and `State.rst`. -/
structure Sig where
  /-- counter-output: PC drives. -/
  co : Bool := false
  /-- address-register-input: MAR captures. -/
  mi : Bool := false
  /-- memory-output: Memory drives. -/
  ro : Bool := false
  /-- instruction-register-input: IR captures. -/
  ii : Bool := false
  /-- counter-enable: PC increments. -/
  ce : Bool := false
  /-- inst-out: IR drives its low nibble. -/
  io : Bool := false
  /-- A-in: A captures. -/
  ai : Bool := false
  /-- B-in: B captures. -/
  bi : Bool := false
  /-- alu-out: the ALU drives. -/
  eo : Bool := false
  /-- subtract-select. -/
  su : Bool := false
  /-- flag-input: the pending flags are committed. -/
  fi : Bool := false
  /-- A-out: A drives. -/
  ao : Bool := false
  /-- memory-input: Memory writes. -/
  ri : Bool := false
  /-- jump-load: PC loads. -/
  j : Bool := false
  /-- out-reg-in: OUT captures. -/
  oi : Bool := false
  deriving DecidableEq, Repr

/-- No pulse signal asserted (R62). -/
def Sig.none : Sig := {}

/-- `prev_X` of each clocked board X: the clock level it saw at its previous tick (R24). -/
structure Prev where
  cu : Bool
  pc : Bool
  mar : Bool
  mem : Bool
  ir : Bool
  alu : Bool
  a : Bool
  b : Bool
  out : Bool
  deriving DecidableEq, Repr

/-- Every board saw the level `l` at its previous tick, as after any tick (R24). -/
def Prev.all (l : Bool) : Prev := ⟨l, l, l, l, l, l, l, l, l⟩

/-- The 16 cells (R29), as the listed (address, byte) pairs; an unlisted cell holds `Config.memInit`. Its operations
and its canonical form are in Machine/Ops.lean. -/
abbrev Memory := List Host.Cell

/-- The complete state of the core: the record of R9, "Nothing else is state". Legal ranges are the fields' types. -/
structure State where
  /-- Clock level, true for high (R10). -/
  clk : Bool
  /-- The shared bus cell, which keeps its last value (R11). -/
  bus : Byte
  /-- Accumulator (R12). -/
  a : Byte
  /-- Second operand register (R12). -/
  b : Byte
  /-- Output register (R12, R95). -/
  out : Byte
  /-- Instruction register (R14). -/
  ir : Byte
  /-- Address register, 4 bits (R15). -/
  mar : Nibble
  /-- Program counter, 4 bits (R16). -/
  pc : Nibble
  /-- Memory (R29). -/
  mem : Memory
  /-- The ALU's live result, `alu_result` (R18). -/
  aluResult : Byte
  /-- Pending carry, `pend_c` (R17). -/
  pendC : Bool
  /-- Pending zero, `pend_z` (R17). -/
  pendZ : Bool
  /-- Committed carry, `C` (R17). -/
  c : Bool
  /-- Committed zero, `Z` (R17). -/
  z : Bool
  /-- Micro-step counter, `step` (R19). -/
  microStep : Fin 5
  /-- Halt latch (R20). -/
  halt : Bool
  /-- Reset latch (R21). -/
  rst : Bool
  /-- Reset hold-count, `rst_hold` (R21). -/
  rstHold : Fin 3
  /-- The pulse signals of the latest tick (R22). -/
  sig : Sig
  /-- The previous clock levels (R24). -/
  prev : Prev
  deriving DecidableEq, Repr

/-- Why the machine stops with a fault: never. "The core raises no synchronous exception. No instruction faults"
(R98); every address is valid (R30) and every byte an instruction (R50), so the type has no constructor. -/
inductive Fault where
  deriving DecidableEq, Repr

/-- Why an instruction has no meaning. -/
inductive Refusal where
  /-- Raised by an arm of `exec` whose instruction has no meaning yet. Safe. No arm raises it: every opcode runs. -/
  | notModelled (mnemonic : String)
  deriving DecidableEq, Repr

/-- The state the host's `reset()` leaves (R28), from the POWER_ON that Sys2Proof/Config.lean names (logs 2, 3, 4). -/
def State.reset : State where
  clk := Config.clkInit
  bus := Config.busInit
  a := 0
  b := 0
  out := 0
  ir := 0
  mar := 0
  pc := 0
  mem := []
  aluResult := 0
  pendC := false
  pendZ := true
  c := false
  z := false
  microStep := 0
  halt := false
  rst := true
  rstHold := 0
  sig := Sig.none
  prev := Prev.all Config.clkInit

end Sys2Proof.Machine
end

