-- ==== Sys2Proof/Machine/Ops.lean ====
section
/-! DEFINITION. The named operations on memory, the bus, clock edges and latches that every board shares
(spec/20_memory.md, spec/40_microsequencer.md R60, R65, R70). The core takes no exception and has no return from one
(spec/60_exceptions.md R98, R101, R102), so no such operation stands here. -/

namespace Sys2Proof.Machine

/-! ### Memory -/

/-- What the cell with number `k` holds: the first listed pair's byte, else MEM_INIT (R39). -/
def Memory.lookup : Memory → Nat → Byte
  | [], _ => Config.memInit
  | (k', v) :: m, k => if k' = k then v else Memory.lookup m k

/-- The list without any pair for the cell `k`. -/
def Memory.erase : Memory → Nat → Memory
  | [], _ => []
  | (k', v) :: m, k => if k' = k then Memory.erase m k else (k', v) :: Memory.erase m k

/-- The pair `(k, v)` put in front of the first pair with a greater address. -/
def Memory.place : Memory → Nat → Byte → Memory
  | [], k, v => [(k, v)]
  | (k', v') :: m, k, v => if k < k' then (k, v) :: (k', v') :: m else (k', v') :: Memory.place m k v

/-- `MemRead(addr, 1)`: one cell (00 section 4, R32). Every address is valid (R30). -/
def Memory.read (m : Memory) (addr : Nibble) : Byte := Memory.lookup m addr.toNat

/-- `MemWrite(addr, 1, v)`: one whole cell (R36). A cell that comes to hold what an unlisted one reads as is not
listed, so that equal memories are equal lists. -/
def Memory.write (m : Memory) (addr : Nibble) (v : Byte) : Memory :=
  if v = Config.memInit then Memory.erase m addr.toNat
  else Memory.place (Memory.erase m addr.toNat) addr.toNat v

/-- Addresses strictly rising from `lo` on, none above 15 (R29), no listed byte equal to an unlisted cell's. -/
def Memory.wfFrom : Nat → Memory → Bool
  | _, [] => true
  | lo, (k, v) :: m => decide (lo ≤ k) && decide (k < 16) && decide (v ≠ Config.memInit) && Memory.wfFrom (k + 1) m

/-- The one canonical form of a memory. -/
def Memory.wf (m : Memory) : Bool := Memory.wfFrom 0 m

/-- `bytes` written to the cells from number `at` on, those beyond cell 15 dropped (R44). -/
def Memory.fill : Memory → Nat → List Byte → Memory
  | m, _, [] => m
  | m, k, v :: rest =>
    if k < 16 then Memory.fill (Memory.write m (BitVec.ofNat 4 k) v) (k + 1) rest else m

/-! ### Bus and edges -/

/-- `drive(v)` by a board whose drive enable is `enable`: the bus afterwards (R65). -/
def drive (enable : Bool) (v bus : Byte) : Byte := if enable then v else bus

/-- `rise_X`: low at the previous tick, high now (R60). -/
def rises (prevLevel clk : Bool) : Bool := !prevLevel && clk

/-- `fall_X`: high at the previous tick, low now (R60). -/
def falls (prevLevel clk : Bool) : Bool := prevLevel && !clk

/-- A latch's buffer after the edge capture (a) and the level-sensitive clear (b) of the register family: the clear
overrides the capture in the same tick (R70). -/
def latch {w : Nat} (capture clear : Bool) (new old : BitVec w) : BitVec w :=
  if clear then 0 else if capture then new else old

/-- A flag latch, with the same order of commit and clear (R84). -/
def latchFlag (capture clear new old : Bool) : Bool :=
  if clear then false else if capture then new else old

/-! ### Micro-step counter and hold-count -/

/-- The micro-step after a falling edge: 5 wraps to 0 (R61). -/
def nextMicroStep (k : Fin 5) : Fin 5 := if k = 4 then 0 else k + 1

/-- The hold-count, one lower (R63). -/
def countDown (h : Fin 3) : Fin 3 := if h = 0 then 0 else h - 1

/-- `rst <- 1; rst_hold <- 2` (R110). Not a host operation by itself (R118). -/
def resetOp (s : State) : State := { s with rst := true, rstHold := 2 }

end Sys2Proof.Machine
end

