-- ==== Sys2Proof/Machine/Flags.lean ====
section
/-! DEFINITION. The adder/subtractor's result and flags (spec/42_arithmetic.md R84, R86), and the conditions of the
jumps (spec/43_control_transfer.md R91, R92). -/

namespace Sys2Proof.Machine

/-- `(A + B) mod 256`, or `(A - B) mod 256` where subtract-select is asserted (R84). -/
def aluValue (su : Bool) (a b : Byte) : Byte := if su then a - b else a + b

/-- Pending carry: the exact sum exceeds 255, or, in a subtraction, `A < B` unsigned, a borrow (R84, R86). -/
def aluCarry (su : Bool) (a b : Byte) : Bool :=
  if su then decide (a.toNat < b.toNat) else decide (a.toNat + b.toNat > 255)

/-- Pending zero: the 8-bit result is 0 (R84, 92 D5). -/
def aluZero (su : Bool) (a b : Byte) : Bool := aluValue su a b == 0

/-- On what a row of the execute table makes jump-load `J` depend at micro-step 2 (R64). -/
inductive JumpWhen where
  /-- `J` is not asserted. -/
  | never
  /-- JMP: `J`. -/
  | always
  /-- JC: "jump-load iff carry flag set". -/
  | carrySet
  /-- JZ: jump-load iff the zero flag is set. -/
  | zeroSet
  deriving DecidableEq, Repr

/-- The value of `J` from the committed flags `c` and `z` (R64, R91, R92). -/
def jumpTaken (w : JumpWhen) (c z : Bool) : Bool :=
  match w with
  | .never => false
  | .always => true
  | .carrySet => c
  | .zeroSet => z

end Sys2Proof.Machine
end

