-- ==== Sys2Proof/Machine/Operands.lean ====
section
/-! DEFINITION. The widths in which an operand travels: zero extension onto the bus and the low nibble off it
(spec/00_scope.md section 4, spec/30_encoding.md R48, spec/41_load_store.md R80). The operand kinds are two, an
absolute direct address and an immediate; both are the operand nibble unchanged. -/

namespace Sys2Proof.Machine

/-- `zext_8(v)`: how a 4-bit value drives the 8-bit bus (R14, R16, R67, R69). -/
def zext8 (v : Nibble) : Byte := v.setWidth 8

/-- `v[3:0]`: what a 4-bit register captures of the bus (R15, R67, R68). -/
def lowNibble (v : Byte) : Nibble := v.setWidth 4

/-- The value LDI loads: the unsigned immediate, zero-extended (R48, R83). -/
def immediateValue (imm : Nibble) : Byte := zext8 imm

/-- The address of the instruction after the one at `p`: no instruction is longer than one cell (R51, R67). -/
def nextAddress (p : Nibble) : Nibble := p + 1

end Sys2Proof.Machine
end

