-- ==== Sys2Proof/Machine/Boards.lean ====
section
/-! DEFINITION. The ten boards, each as its slot of one tick (spec/40_microsequencer.md R58 to R70, spec/20_memory.md
R32, spec/42_arithmetic.md R84), and the tick as their composition in the order of R58. The ControlUnit takes the
execute-table row of the instruction it sequences as an argument; Machine/Tick.lean gives it the row of the opcode in
IR. -/

namespace Sys2Proof.Machine

/-- One row of the execute table: the pulse signals of micro-steps 2, 3 and 4, what jump-load depends on at
micro-step 2, and whether micro-step 2 sets the halt latch (R64). A signal not named is 0. -/
structure ExecRow where
  two : Sig := {}
  three : Sig := {}
  four : Sig := {}
  jump : JumpWhen := .never
  halts : Bool := false
  deriving DecidableEq, Repr

/-- The control word of a micro-step (R64): the fetch at 0 and 1 is the same for every opcode (R52), 2 to 4 are the
row's. `c` and `z` are the committed flags. -/
def controlWord (row : ExecRow) (k : Fin 5) (c z : Bool) : Sig :=
  match k with
  | 0 => { co := true, mi := true }
  | 1 => { ro := true, ii := true, ce := true }
  | 2 => { row.two with j := jumpTaken row.jump c z }
  | 3 => row.three
  | 4 => row.four

/-- Clock (R59): toggles, or is forced low while the halt latch is set. -/
def clockBoard (s : State) : State := { s with clk := if s.halt then false else !s.clk }

/-- ControlUnit (R61 to R64): advance the micro-step on a falling edge; clear every pulse; while the hold-count is not
0 keep `rst` asserted, zero `step` and `halt` and skip the decode; else drop `rst` and decode. -/
def controlUnit (row : ExecRow) (s : State) : State :=
  let k := if falls s.prev.cu s.clk then nextMicroStep s.microStep else s.microStep
  let prev := { s.prev with cu := s.clk }
  if s.rstHold = 0 then
    { s with
      prev := prev, microStep := k, rst := false
      sig := controlWord row k s.c s.z
      halt := s.halt || (decide (k = 2) && row.halts) }
  else
    { s with
      prev := prev, microStep := 0, rst := true, rstHold := countDown s.rstHold
      sig := Sig.none, halt := false }

/-- The program counter after its edge logic: load wins over increment (R67). -/
def pcEdge (rise j ce : Bool) (bus : Byte) (pc : Nibble) : Nibble :=
  if rise then (if j then lowNibble bus else if ce then nextAddress pc else pc) else pc

/-- ProgramCounter (R67): edge logic, then clear, then drive. -/
def pcBoard (s : State) : State :=
  let pc := latch true s.rst (pcEdge (rises s.prev.pc s.clk) s.sig.j s.sig.ce s.bus s.pc) s.pc
  { s with pc := pc, bus := drive s.sig.co (zext8 pc) s.bus, prev := { s.prev with pc := s.clk } }

/-- Address register (R68): captures the low 4 bits of the bus, has no drive path. -/
def marBoard (s : State) : State :=
  { s with
    mar := latch (rises s.prev.mar s.clk && s.sig.mi) s.rst (lowNibble s.bus) s.mar
    prev := { s.prev with mar := s.clk } }

/-- Memory (R32): synchronous write, then level-sensitive read drive. It has no clear input (R23). -/
def memoryBoard (s : State) : State :=
  let mem := if rises s.prev.mem s.clk && s.sig.ri then s.mem.write s.mar s.bus else s.mem
  { s with mem := mem, bus := drive s.sig.ro (mem.read s.mar) s.bus, prev := { s.prev with mem := s.clk } }

/-- Instruction register (R69): captures 8 bits, drives only its low 4. -/
def irBoard (s : State) : State :=
  let ir := latch (rises s.prev.ir s.clk && s.sig.ii) s.rst s.bus s.ir
  { s with ir := ir, bus := drive s.sig.io (zext8 (operandOf ir)) s.bus, prev := { s.prev with ir := s.clk } }

/-- ArithmeticUnit (R84): the result and the pending flags every tick, the committed flags on a rising edge with FI,
then clear, then drive. The clear does not touch the result or the pending flags. -/
def aluBoard (s : State) : State :=
  let value := aluValue s.sig.su s.a s.b
  let pendC := aluCarry s.sig.su s.a s.b
  let pendZ := aluZero s.sig.su s.a s.b
  let commit := rises s.prev.alu s.clk && s.sig.fi
  { s with
    aluResult := value, pendC := pendC, pendZ := pendZ
    c := latchFlag commit s.rst pendC s.c
    z := latchFlag commit s.rst pendZ s.z
    bus := drive s.sig.eo value s.bus
    prev := { s.prev with alu := s.clk } }

/-- Register A (R70): the one generic register with a drive enable, AO. -/
def aBoard (s : State) : State :=
  let a := latch (rises s.prev.a s.clk && s.sig.ai) s.rst s.bus s.a
  { s with a := a, bus := drive s.sig.ao a s.bus, prev := { s.prev with a := s.clk } }

/-- Register B (R70), which never drives (R12). -/
def bBoard (s : State) : State :=
  { s with
    b := latch (rises s.prev.b s.clk && s.sig.bi) s.rst s.bus s.b
    prev := { s.prev with b := s.clk } }

/-- Output register (R70), which never drives (R12). -/
def outBoard (s : State) : State :=
  { s with
    out := latch (rises s.prev.out s.clk && s.sig.oi) s.rst s.bus s.out
    prev := { s.prev with out := s.clk } }

/-- The boards after the ControlUnit, positions 3 to 10 of R58. -/
def dataBoards (s : State) : State :=
  outBoard (bBoard (aBoard (aluBoard (irBoard (memoryBoard (marBoard (pcBoard s)))))))

/-- One tick (R58) in which the ControlUnit sequences the instruction with this row. -/
def tickWith (row : ExecRow) (s : State) : State := dataBoards (controlUnit row (clockBoard s))

/-- `n` such ticks, one after the other. -/
def ticksWith (row : ExecRow) : Nat → State → State
  | 0, s => s
  | n + 1, s => ticksWith row n (tickWith row s)

/-- The execute phase of an instruction with this row, from the end of its fetch: micro-steps 2, 3 and 4, of two
ticks each (R71). A row that halts freezes the core in the first of them, and the others change nothing (R109). The
instruction register holds the instruction's byte, as the fetch leaves it (R73, log 6). -/
def executePhase (row : ExecRow) (byte : Byte) (s : State) : State := ticksWith row 6 { s with ir := byte }

end Sys2Proof.Machine
end

