-- ==== Sys2Proof/Machine/Arithmetic.lean ====
section
/-! DEFINITION. ADD and SUB (spec/42_arithmetic.md R87, R88): the execute-table row of each
(spec/40_microsequencer.md R64) and its meaning. -/

namespace Sys2Proof.Machine

/-- ADD (R87): step 2 `IO, MI`; step 3 `RO, BI`; step 4 `EO, AI, FI`. -/
def addRow : ExecRow where
  two := { io := true, mi := true }
  three := { ro := true, bi := true }
  four := { eo := true, ai := true, fi := true }

/-- SUB (R88): step 2 `IO, MI`; step 3 `RO, BI`; step 4 `EO, AI, SU, FI`. -/
def subRow : ExecRow where
  two := { io := true, mi := true }
  three := { ro := true, bi := true }
  four := { eo := true, ai := true, su := true, fi := true }

/-- ADD `a`: `MAR <- a; B <- mem[a]; A <- (A + B) mod 256`, with C the carry and Z from the sum (R87). -/
def execAdd (addr : Nibble) (s : State) : Host.Outcome State Fault Refusal :=
  .next (executePhase addRow (encode (.add addr)) s)

/-- SUB `a`: `MAR <- a; B <- mem[a]; A <- (A - B) mod 256`, with C the borrow and Z from the difference (R88). -/
def execSub (addr : Nibble) (s : State) : Host.Outcome State Fault Refusal :=
  .next (executePhase subRow (encode (.sub addr)) s)

end Sys2Proof.Machine
end

