-- ==== Sys2Proof/Machine/ControlTransfer.lean ====
section
/-! DEFINITION. JMP, JC and JZ (spec/43_control_transfer.md): the execute-table row of each
(spec/40_microsequencer.md R64) and its meaning. `IO` is asserted whether or not the jump is taken (92 D6). -/

namespace Sys2Proof.Machine

/-- JMP (R90): step 2 `IO, J`; steps 3 and 4 no signal. -/
def jmpRow : ExecRow where
  two := { io := true }
  jump := .always

/-- JC (R91): step 2 `IO`, and `J = C`; steps 3 and 4 no signal. -/
def jcRow : ExecRow where
  two := { io := true }
  jump := .carrySet

/-- JZ (R92): step 2 `IO`, and `J = Z`; steps 3 and 4 no signal. -/
def jzRow : ExecRow where
  two := { io := true }
  jump := .zeroSet

/-- JMP `a`: `PC <- a` (R90). -/
def execJmp (addr : Nibble) (s : State) : Host.Outcome State Fault Refusal :=
  .next (executePhase jmpRow (encode (.jmp addr)) s)

/-- JC `a`: `if C = 1 then PC <- a` (R91). -/
def execJc (addr : Nibble) (s : State) : Host.Outcome State Fault Refusal :=
  .next (executePhase jcRow (encode (.jc addr)) s)

/-- JZ `a`: `if Z = 1 then PC <- a` (R92). -/
def execJz (addr : Nibble) (s : State) : Host.Outcome State Fault Refusal :=
  .next (executePhase jzRow (encode (.jz addr)) s)

end Sys2Proof.Machine
end

