-- ==== Sys2Proof/Machine/LoadStore.lean ====
section
/-! DEFINITION. LDA, STA and LDI (spec/41_load_store.md): the execute-table row of each (spec/40_microsequencer.md
R64) and its meaning, the boards' six ticks under that row. -/

namespace Sys2Proof.Machine

/-- LDA (R81): step 2 `IO, MI`; step 3 `RO, AI`; step 4 no signal. -/
def ldaRow : ExecRow where
  two := { io := true, mi := true }
  three := { ro := true, ai := true }

/-- STA (R82): step 2 `IO, MI`; step 3 `AO, RI`; step 4 no signal. -/
def staRow : ExecRow where
  two := { io := true, mi := true }
  three := { ao := true, ri := true }

/-- LDI (R83): step 2 `IO, AI`; steps 3 and 4 no signal. -/
def ldiRow : ExecRow where
  two := { io := true, ai := true }

/-- LDA `a`: `MAR <- a; A <- mem[a]` (R81). -/
def execLda (addr : Nibble) (s : State) : Host.Outcome State Fault Refusal :=
  .next (executePhase ldaRow (encode (.lda addr)) s)

/-- STA `a`: `MAR <- a; mem[a] <- A` (R82). -/
def execSta (addr : Nibble) (s : State) : Host.Outcome State Fault Refusal :=
  .next (executePhase staRow (encode (.sta addr)) s)

/-- LDI `i`: `A <- zext_8(i)` (R83). -/
def execLdi (imm : Nibble) (s : State) : Host.Outcome State Fault Refusal :=
  .next (executePhase ldiRow (encode (.ldi imm)) s)

end Sys2Proof.Machine
end

