-- ==== Sys2Proof/Machine/System.lean ====
section
/-! DEFINITION. NOP, the five unrecognised opcodes, OUT and HLT (spec/44_system.md): the execute-table row of each
(spec/40_microsequencer.md R64) and its meaning. -/

namespace Sys2Proof.Machine

/-- NOP (R93): steps 2, 3 and 4 assert no signal. -/
def nopRow : ExecRow := {}

/-- An unrecognised opcode (R94): "no signals, treated as defined no-op, not an error". -/
def unrecognisedRow : ExecRow := {}

/-- OUT (R95): step 2 `AO, OI`; steps 3 and 4 no signal. -/
def outRow : ExecRow where
  two := { ao := true, oi := true }

/-- HLT (R96): step 2 no pulse, and the halt latch is set in its falling-edge tick. -/
def hltRow : ExecRow where
  halts := true

/-- NOP: nothing beyond the fetch (R93). -/
def execNop (x : Nibble) (s : State) : Host.Outcome State Fault Refusal :=
  .next (executePhase nopRow (encode (.nop x)) s)

/-- Opcode 0x9: no operation (R94). -/
def execUnrecognised9 (x : Nibble) (s : State) : Host.Outcome State Fault Refusal :=
  .next (executePhase unrecognisedRow (encode (.unrecognised9 x)) s)

/-- Opcode 0xA: no operation (R94). -/
def execUnrecognisedA (x : Nibble) (s : State) : Host.Outcome State Fault Refusal :=
  .next (executePhase unrecognisedRow (encode (.unrecognisedA x)) s)

/-- Opcode 0xB: no operation (R94). -/
def execUnrecognisedB (x : Nibble) (s : State) : Host.Outcome State Fault Refusal :=
  .next (executePhase unrecognisedRow (encode (.unrecognisedB x)) s)

/-- Opcode 0xC: no operation (R94). -/
def execUnrecognisedC (x : Nibble) (s : State) : Host.Outcome State Fault Refusal :=
  .next (executePhase unrecognisedRow (encode (.unrecognisedC x)) s)

/-- Opcode 0xD: no operation (R94). -/
def execUnrecognisedD (x : Nibble) (s : State) : Host.Outcome State Fault Refusal :=
  .next (executePhase unrecognisedRow (encode (.unrecognisedD x)) s)

/-- OUT: `OUT <- A` (R95). -/
def execOut (x : Nibble) (s : State) : Host.Outcome State Fault Refusal :=
  .next (executePhase outRow (encode (.out x)) s)

/-- HLT: `halt <- 1`, and the core stays frozen until reset (R96, R109). -/
def execHlt (x : Nibble) (s : State) : Host.Outcome State Fault Refusal :=
  .next (executePhase hltRow (encode (.hlt x)) s)

end Sys2Proof.Machine
end

