-- ==== Sys2Proof/Machine/Dispatch.lean ====
section
/-! DEFINITION. One arm per row of the opcode map (spec/30_encoding.md R49): the execute phase of each instruction. -/

namespace Sys2Proof.Machine

def exec (i : Instr) (s : State) : Host.Outcome State Fault Refusal :=
  match i with
  | .nop x => Sys2Proof.Machine.execNop x s
  | .lda addr => Sys2Proof.Machine.execLda addr s
  | .add addr => Sys2Proof.Machine.execAdd addr s
  | .sub addr => Sys2Proof.Machine.execSub addr s
  | .sta addr => Sys2Proof.Machine.execSta addr s
  | .ldi imm => Sys2Proof.Machine.execLdi imm s
  | .jmp addr => Sys2Proof.Machine.execJmp addr s
  | .jc addr => Sys2Proof.Machine.execJc addr s
  | .jz addr => Sys2Proof.Machine.execJz addr s
  | .unrecognised9 x => Sys2Proof.Machine.execUnrecognised9 x s
  | .unrecognisedA x => Sys2Proof.Machine.execUnrecognisedA x s
  | .unrecognisedB x => Sys2Proof.Machine.execUnrecognisedB x s
  | .unrecognisedC x => Sys2Proof.Machine.execUnrecognisedC x s
  | .unrecognisedD x => Sys2Proof.Machine.execUnrecognisedD x s
  | .out x => Sys2Proof.Machine.execOut x s
  | .hlt x => Sys2Proof.Machine.execHlt x s

end Sys2Proof.Machine
end

