-- ==== Sys2Proof/Machine/Tick.lean ====
section
/-! DEFINITION. The tick of the whole core (spec/40_microsequencer.md R58) with the decode table keyed by the opcode in
IR (R64), and the parts of an instruction's ten ticks (R71, R73, R74). -/

namespace Sys2Proof.Machine

/-- The execute table (R64): the row of each opcode. -/
def rowOf : Instr → ExecRow
  | .nop _ => nopRow
  | .lda _ => ldaRow
  | .add _ => addRow
  | .sub _ => subRow
  | .sta _ => staRow
  | .ldi _ => ldiRow
  | .jmp _ => jmpRow
  | .jc _ => jcRow
  | .jz _ => jzRow
  | .unrecognised9 _ => unrecognisedRow
  | .unrecognisedA _ => unrecognisedRow
  | .unrecognisedB _ => unrecognisedRow
  | .unrecognisedC _ => unrecognisedRow
  | .unrecognisedD _ => unrecognisedRow
  | .out _ => outRow
  | .hlt _ => hltRow

/-- `tick()` (R58, R75): one half clock period. The ControlUnit reads the opcode in IR as IR stands when the
ControlUnit runs; no board before it in the tick writes IR. -/
def tick (s : State) : State := tickWith (rowOf (decode s.ir)) s

/-- `n` ticks. -/
def ticks : Nat → State → State
  | 0, s => s
  | n + 1, s => ticks n (tick s)

/-- The instruction boundary (R77, 92 D16): `step = 4` and `clk = 1`. -/
def State.atBoundary (s : State) : Bool := s.microStep == 4 && s.clk

/-- Ticks until the boundary or the halt latch, tested after each tick as in R77 and R78, at most `fuel` of them. -/
def ticksToStop : Nat → State → State
  | 0, s => s
  | fuel + 1, s =>
    let t := tick s
    if t.atBoundary || t.halt then t else ticksToStop fuel t

/-- More ticks than any run to the boundary or the halt latch takes: two of a pending reset, ten of an instruction,
and two where a board's previous clock level was not yet the clock's (R24, R63, R74). -/
def stopBound : Nat := 16

/-- How many ticks complete the fetch phase that comes next, where the next tick belongs to a fetch phase (R71, R73,
R113): from the boundary four; in micro-step 0 three or two, by the clock level; in micro-step 1 after its
falling-edge tick one. None where the core is halted, where a reset is pending, where a board has not yet seen the
clock level (R24), and in the execute phase. -/
def State.fetchTicks (s : State) : Option Nat :=
  if s.halt || s.rstHold ≠ 0 || s.prev ≠ Prev.all s.clk then none
  else if s.atBoundary then some 4
  else if s.microStep = 0 then some (if s.clk then 2 else 3)
  else if s.microStep = 1 then (if s.clk then none else some 1)
  else none

/-- The address the fetch that comes next reads (R31): `PC` where micro-step 0 has still to capture it, else `MAR`. -/
def State.fetchAddr (s : State) : Nibble :=
  if s.atBoundary || (decide (s.microStep = 0) && !s.clk) then s.pc else s.mar

/-- The instruction boundary with the registers, flags and memory of `s`, running: where `s` is halted, under reset
or inside an instruction, this is the state from which a fetch comes next. -/
def State.toBoundary (s : State) : State :=
  { s with clk := true, microStep := 4, halt := false, rstHold := 0, prev := Prev.all true }

end Sys2Proof.Machine
end

