-- ==== Sys2Proof/Machine/HostInterface.lean ====
section
/-! DEFINITION. What the host can do to the core between ticks (spec/70_reset_and_hazards.md R121): load, tick, step,
run, reset, read. The two run operations may never return (R77, R78); they take a bound and answer none where it ran
out (spec/93_implementation_defined.md I11, I12; log 7). -/

namespace Sys2Proof.Machine

/-- `load_memory(bytes) -> truncated` (R44). -/
def loadMemory (bytes : List Byte) (s : State) : State × Bool :=
  ({ s with mem := s.mem.fill 0 bytes }, decide (bytes.length > 16))

/-- `full_step()` (R76): two ticks. -/
def fullStep (s : State) : State := tick (tick s)

/-- `run_to_instruction_boundary()` (R77): tick until `step = 4` and `clk = 1`, tested after each tick. -/
def runToInstructionBoundary : Nat → State → Option State
  | 0, _ => none
  | fuel + 1, s =>
    let t := tick s
    if t.atBoundary then some t else runToInstructionBoundary fuel t

/-- `run_to_halt()` (R78): tick until `halt = 1`, tested after each tick. -/
def runToHalt : Nat → State → Option State
  | 0, _ => none
  | fuel + 1, s =>
    let t := tick s
    if t.halt then some t else runToHalt fuel t

/-- `reset()` (R111): the ControlUnit's reset operation, then two ticks. -/
def hostReset (s : State) : State := tick (tick (resetOp s))

/-- What the read-only accessors return (R26, R108): every element of the state but the previous clock levels and the
hold-count, which 92 D12 excepts (log 12); `MAR` is shown zero-extended. An accessor changes no state. -/
structure Observed where
  bus : Byte
  a : Byte
  b : Byte
  out : Byte
  ir : Byte
  mar : Byte
  pc : Nibble
  c : Bool
  z : Bool
  halt : Bool
  clk : Bool
  step : Fin 5
  rst : Bool
  aluResult : Byte
  pendC : Bool
  pendZ : Bool
  sig : Sig
  cells : List Byte
  deriving DecidableEq, Repr

/-- The accessors (R26). -/
def observe (s : State) : Observed where
  bus := s.bus
  a := s.a
  b := s.b
  out := s.out
  ir := s.ir
  mar := zext8 s.mar
  pc := s.pc
  c := s.c
  z := s.z
  halt := s.halt
  clk := s.clk
  step := s.microStep
  rst := s.rst
  aluResult := s.aluResult
  pendC := s.pendC
  pendZ := s.pendZ
  sig := s.sig
  cells := (List.range 16).map fun k => s.mem.read (BitVec.ofNat 4 k)

end Sys2Proof.Machine
end

