-- ==== Sys2Proof/Machine/Step.lean ====
section
/-! DEFINITION. One step of the model: one instruction, as the host's `run_to_instruction_boundary` performs it
(spec/40_microsequencer.md R74, R77), ended also by the halt latch (R78; log 1). -/

namespace Sys2Proof.Machine

/-- Where a fetch comes next, the ticks of the fetch phase and then the execute phase of the instruction it put into
IR (R73, R74). Elsewhere (inside an instruction already fetched, halted, or with a reset pending) the ticks up to the
instruction boundary or the halt latch; a halted core stays as it is (R109). -/
def step (s : State) : Host.Outcome State Fault Refusal :=
  match s.fetchTicks with
  | some n =>
    let fetched := ticks n s
    exec (decode fetched.ir) fetched
  | none => .next (ticksToStop stopBound s)

/-- `s` with the instruction whose bits are `w` in the cell the next fetch reads. Where no fetch comes next, the core
is put at the instruction boundary first (log 5). -/
def State.withFetchWord (s : State) (nbits w : Nat) : State :=
  let t := if s.fetchTicks.isSome then s else s.toBoundary
  { t with mem := t.mem.write t.fetchAddr (tableByte nbits w) }

end Sys2Proof.Machine
end

