-- ==== Sys2Proof/Safety.lean ====
section
/-! DEFINITION. The states a claim speaks of (the instruction boundary, the end of the fetch, the halted state) and the
invariant of the core, in the terms of spec/10_state.md, spec/40_microsequencer.md and spec/60_exceptions.md. No step
faults or is refused, so a run is safe where its states meet the invariant. -/

namespace Sys2Proof.Machine

/-- Running: not halted, no reset pending, and every board has seen the clock level (R24), as after any tick outside
reset and halt. -/
abbrev State.Running (s : State) : Prop :=
  s.halt = false ∧ s.rstHold = 0 ∧ s.prev = Prev.all s.clk

/-- The instruction boundary of a running core (R77): right after the rising-edge tick of micro-step 4. -/
abbrev State.Boundary (s : State) : Prop := s.microStep = 4 ∧ s.clk = true ∧ s.Running

/-- The end of the fetch phase of a running core (R73): right after the rising-edge tick of micro-step 1. -/
abbrev State.FetchDone (s : State) : Prop := s.microStep = 1 ∧ s.clk = true ∧ s.Running

/-- The halted state HLT leaves (R96, R109): the latch set, the clock low, micro-step 2, a HLT byte in IR, and the
live outputs settled. -/
abbrev State.Frozen (s : State) : Prop :=
  s.halt = true ∧ s.clk = false ∧ s.microStep = 2 ∧ opcodeOf s.ir = 0xF ∧ s.rst = false ∧ s.rstHold = 0 ∧
    s.prev = Prev.all false ∧ s.sig = Sig.none ∧ s.aluResult = aluValue false s.a s.b ∧
    s.pendC = aluCarry false s.a s.b ∧ s.pendZ = aluZero false s.a s.b

/-- The registers, flags and the halt latch: what an instruction rule speaks of besides memory. A statement
`t.regs = { s.regs with … }` says the new values and that every other one is unchanged. -/
structure Regs where
  a : Byte
  b : Byte
  out : Byte
  ir : Byte
  mar : Nibble
  pc : Nibble
  c : Bool
  z : Bool
  halt : Bool
  deriving DecidableEq, Repr

/-- The registers, flags and halt latch of a state. -/
def State.regs (s : State) : Regs := ⟨s.a, s.b, s.out, s.ir, s.mar, s.pc, s.c, s.z, s.halt⟩

/-- How many of the five drive enables CO, RO, IO, EO, AO a control word asserts (R66). -/
def Sig.drivers (g : Sig) : Nat :=
  g.co.toNat + g.ro.toNat + g.io.toNat + g.eo.toNat + g.ao.toNat

/-- The invariant of the core. -/
structure State.Inv (s : State) : Prop where
  /-- The memory list is in its canonical form. -/
  memCanonical : s.mem.wf = true
  /-- "After any tick, every prev_X equals clk" (R24). -/
  levelsSeen : s.prev = Prev.all s.clk
  /-- "At most one board may assert an output-enable signal in any tick" (R66). -/
  oneDriver : s.sig.drivers ≤ 1
  /-- "No control word asserts J and CE together" (R66). -/
  noLoadWithCount : ¬(s.sig.j = true ∧ s.sig.ce = true)
  /-- "Nor RI and RO" (R66). -/
  noWriteWithRead : ¬(s.sig.ri = true ∧ s.sig.ro = true)
  /-- The halt latch is set exactly in micro-step 2 of opcode 0xF (R20, R96). -/
  haltedInHlt : s.halt = true ↔ (s.microStep = 2 ∧ opcodeOf s.ir = 0xF)
  /-- "While halt = 1 the clock is stopped low" (R20). -/
  haltedLow : s.halt = true → s.clk = false
  /-- While the reset latch is asserted every register and both committed flags are 0 (R23). -/
  clearedInReset : s.rst = true →
    s.a = 0 ∧ s.b = 0 ∧ s.out = 0 ∧ s.ir = 0 ∧ s.mar = 0 ∧ s.pc = 0 ∧ s.c = false ∧ s.z = false

end Sys2Proof.Machine
end

