-- ==== Sys2Proof/Certificates/Slice0/Obligations.lean ====
section
/-! DEFINITION. The statements for the provers, by rule of spec/: encoding, boards, tick, reset, fetch, the sixteen
instructions, whole-machine rules. "derived" in a docstring names a clause that the spec itself marks as its own
inference, or a choice of the model with its log entry. -/

namespace Sys2Proof.Spec

open Sys2Proof.Machine

/-- The decode table of R64, written by opcode value, row by row; a signal not named is 0. -/
def controlTable (k : Fin 5) (op : Nibble) (c z : Bool) : Sig :=
  if k = 0 then { co := true, mi := true }
  else if k = 1 then { ro := true, ii := true, ce := true }
  else if k = 2 then
    if op = 0x1 ∨ op = 0x2 ∨ op = 0x3 ∨ op = 0x4 then { io := true, mi := true }
    else if op = 0x5 then { io := true, ai := true }
    else if op = 0x6 then { io := true, j := true }
    else if op = 0x7 then { io := true, j := c }
    else if op = 0x8 then { io := true, j := z }
    else if op = 0xE then { ao := true, oi := true }
    else {}
  else if k = 3 then
    if op = 0x1 then { ro := true, ai := true }
    else if op = 0x2 ∨ op = 0x3 then { ro := true, bi := true }
    else if op = 0x4 then { ao := true, ri := true }
    else {}
  else
    if op = 0x2 then { eo := true, ai := true, fi := true }
    else if op = 0x3 then { eo := true, ai := true, su := true, fi := true }
    else {}

/-- The micro-steps an instruction rule lists: the control words of steps 2, 3 and 4 under the flags `c`, `z`. -/
def MicroSteps (i : Instr) (two three four : Bool → Bool → Sig) : Prop :=
  ∀ c z, controlWord (rowOf i) 2 c z = two c z ∧ controlWord (rowOf i) 3 c z = three c z ∧
    controlWord (rowOf i) 4 c z = four c z

/-- No pulse signal, whatever the flags. -/
def noSignal : Bool → Bool → Sig := fun _ _ => {}

/-- The value the one asserted driver of the word `g` presents, read from the state `s` (R72). -/
def presented (g : Sig) (s : State) : Byte :=
  if g.co then zext8 s.pc
  else if g.ro then s.mem.read s.mar
  else if g.io then zext8 (operandOf s.ir)
  else if g.eo then (if g.su then s.a - s.b else s.a + s.b)
  else if g.ao then s.a
  else s.bus

end Sys2Proof.Spec

open Sys2Proof Sys2Proof.Machine Sys2Proof.Spec

/-! ### Encoding -/

/-- Derived (from the format of R47 and the rows of R49): the decoder reads back every encoded instruction with every
operand, from the byte, from a byte sequence and from the table word, whose bits above the eighth it does not read. -/
def Obligations.DecodeReadsBackEveryEncodedInstruction : Prop :=
  ∀ (i : Instr), i.wf = true →
    decode (encode i) = i ∧ (∀ rest : List Byte, decodeBytes (encode i :: rest) = .ok (i, rest)) ∧
      ∀ hi : Nat, decodeTableWord 8 ((encode i).toNat + 256 * hi) = some i

/-- R49: the sixteen rows of the opcode map, with every operand. -/
def Obligations.OpcodeMapHasSixteenRows : Prop :=
  ∀ x : Nibble,
    decode (joinNibbles 0x0 x) = .nop x ∧ decode (joinNibbles 0x1 x) = .lda x ∧
    decode (joinNibbles 0x2 x) = .add x ∧ decode (joinNibbles 0x3 x) = .sub x ∧
    decode (joinNibbles 0x4 x) = .sta x ∧ decode (joinNibbles 0x5 x) = .ldi x ∧
    decode (joinNibbles 0x6 x) = .jmp x ∧ decode (joinNibbles 0x7 x) = .jc x ∧
    decode (joinNibbles 0x8 x) = .jz x ∧ decode (joinNibbles 0x9 x) = .unrecognised9 x ∧
    decode (joinNibbles 0xA x) = .unrecognisedA x ∧ decode (joinNibbles 0xB x) = .unrecognisedB x ∧
    decode (joinNibbles 0xC x) = .unrecognisedC x ∧ decode (joinNibbles 0xD x) = .unrecognisedD x ∧
    decode (joinNibbles 0xE x) = .out x ∧ decode (joinNibbles 0xF x) = .hlt x

/-- Derived (30 section 2, the spec's inference "Every one of the 256 byte values decodes to exactly one row"): each
byte is the encoding of the instruction it decodes to, and of no other. -/
def Obligations.EveryByteEncodesExactlyOneInstruction : Prop :=
  ∀ (b : Byte) (i : Instr), encode i = b ↔ i = decode b

/-- Derived (R57 is the spec's own computation): its worked examples, assembled and decoded. -/
def Obligations.EncodingExamplesDecodeAsWritten : Prop :=
  assemble (.lda 14) = some 0x1E ∧ decode 0x1E = .lda 14 ∧ assemble (.add 15) = some 0x2F ∧ decode 0x2F = .add 15 ∧
  assemble (.sub 11) = some 0x3B ∧ decode 0x3B = .sub 11 ∧ assemble (.sta 13) = some 0x4D ∧ decode 0x4D = .sta 13 ∧
  assemble (.ldi 15) = some 0x5F ∧ decode 0x5F = .ldi 15 ∧ assemble (.jmp 0) = some 0x60 ∧ decode 0x60 = .jmp 0 ∧
  assemble (.jc 8) = some 0x78 ∧ decode 0x78 = .jc 8 ∧ assemble (.jz 6) = some 0x86 ∧ decode 0x86 = .jz 6 ∧
  assemble .out = some 0xE0 ∧ decode 0xE0 = .out 0 ∧ assemble .hlt = some 0xF0 ∧ decode 0xF0 = .hlt 0 ∧
  assemble .nop = some 0x00 ∧ decode 0x00 = .nop 0 ∧ decode 0x9C = .unrecognised9 12 ∧ decode 0xE7 = .out 7

/-- R55: an operand of 0..15 assembles to itself, a greater one assembles to nothing, and no instruction of the core
holds one. -/
def Obligations.AssemblerRefusesOperandsAboveFifteen : Prop :=
  (∀ n : Nat,
    (n ≤ 15 →
      assemble (.lda n) = some (joinNibbles 0x1 (BitVec.ofNat 4 n)) ∧
      assemble (.add n) = some (joinNibbles 0x2 (BitVec.ofNat 4 n)) ∧
      assemble (.sub n) = some (joinNibbles 0x3 (BitVec.ofNat 4 n)) ∧
      assemble (.sta n) = some (joinNibbles 0x4 (BitVec.ofNat 4 n)) ∧
      assemble (.ldi n) = some (joinNibbles 0x5 (BitVec.ofNat 4 n)) ∧
      assemble (.jmp n) = some (joinNibbles 0x6 (BitVec.ofNat 4 n)) ∧
      assemble (.jc n) = some (joinNibbles 0x7 (BitVec.ofNat 4 n)) ∧
      assemble (.jz n) = some (joinNibbles 0x8 (BitVec.ofNat 4 n))) ∧
    (15 < n →
      assemble (.lda n) = none ∧ assemble (.add n) = none ∧ assemble (.sub n) = none ∧ assemble (.sta n) = none ∧
      assemble (.ldi n) = none ∧ assemble (.jmp n) = none ∧ assemble (.jc n) = none ∧ assemble (.jz n) = none)) ∧
  ∀ i : Instr, i.operand.toNat ≤ 15

/-! ### Boards -/

/-- R59: the Clock toggles, or is forced low while the halt latch is set, and changes nothing else. -/
def Obligations.ClockTogglesUnlessHalted : Prop :=
  ∀ s : State,
    (s.halt = false → clockBoard s = { s with clk := !s.clk }) ∧ (s.halt = true → clockBoard s = { s with clk := false })

/-- R61, R62, R64: outside reset the ControlUnit advances the micro-step on a falling edge, drops the reset latch,
replaces every pulse signal by the table's word for micro-step, opcode and committed flags, and sets the halt latch at
micro-step 2 of opcode 0xF. -/
def Obligations.ControlUnitFollowsDecodeTable : Prop :=
  ∀ s : State, s.rstHold = 0 →
    let k := if s.prev.cu = true ∧ s.clk = false then (if s.microStep = 4 then 0 else s.microStep + 1) else s.microStep
    controlUnit (rowOf (decode s.ir)) s =
      { s with
        prev := { s.prev with cu := s.clk }
        microStep := k
        rst := false
        sig := controlTable k (opcodeOf s.ir) s.c s.z
        halt := s.halt || decide (k = 2 ∧ opcodeOf s.ir = 0xF) }

/-- R63: with the hold-count above 0 the ControlUnit keeps the reset latch, counts down, zeroes the micro-step and the
halt latch, and asserts no pulse signal; with the hold-count 0 it drops the reset latch and the decode runs; from a
hold-count of 2 the latch is asserted in exactly two evaluations. -/
def Obligations.ControlUnitResetBranch : Prop :=
  ∀ s : State,
    (0 < s.rstHold →
      controlUnit (rowOf (decode s.ir)) s =
        { s with
          prev := { s.prev with cu := s.clk }
          rst := true
          rstHold := s.rstHold - 1
          microStep := 0
          halt := false
          sig := {} }) ∧
    (s.rstHold = 0 →
      (controlUnit (rowOf (decode s.ir)) s).rst = false ∧ (controlUnit (rowOf (decode s.ir)) s).rstHold = 0 ∧
      (controlUnit (rowOf (decode s.ir)) s).sig =
        controlTable (controlUnit (rowOf (decode s.ir)) s).microStep (opcodeOf s.ir) s.c s.z) ∧
    (s.rstHold = 2 →
      let f := fun x : State => controlUnit (rowOf (decode x.ir)) x
      (f s).rst = true ∧ (f (f s)).rst = true ∧ (f (f (f s))).rst = false)

/-- R67: load wins over count, the clear over both, and the counter drives after them. -/
def Obligations.ProgramCounterBoardRule : Prop :=
  ∀ s : State, ∃ pc : Nibble,
    pcBoard s = { s with pc := pc, prev := { s.prev with pc := s.clk }, bus := if s.sig.co then pc.setWidth 8 else s.bus } ∧
    (s.rst = true → pc = 0) ∧
    (s.rst = false → ¬(s.prev.pc = false ∧ s.clk = true) → pc = s.pc) ∧
    (s.rst = false → s.prev.pc = false → s.clk = true →
      (s.sig.j = true → pc.toNat = s.bus.toNat % 16) ∧
      (s.sig.j = false → s.sig.ce = true → pc.toNat = (s.pc.toNat + 1) % 16) ∧
      (s.sig.j = false → s.sig.ce = false → pc = s.pc))

/-- R68, R69: the address register captures the low 4 bits on a rising edge with MI and never drives; the instruction
register captures all 8 bits with II and drives its low 4 bits with IO; the clear overrides the capture. -/
def Obligations.AddressAndInstructionRegisterRules : Prop :=
  ∀ s : State,
    marBoard s =
      { s with
        mar := if s.rst then 0 else if s.prev.mar = false ∧ s.clk = true ∧ s.sig.mi = true then s.bus.setWidth 4 else s.mar
        prev := { s.prev with mar := s.clk } } ∧
    ∃ ir : Byte,
      ir = (if s.rst then 0 else if s.prev.ir = false ∧ s.clk = true ∧ s.sig.ii = true then s.bus else s.ir) ∧
      irBoard s =
        { s with
          ir := ir
          prev := { s.prev with ir := s.clk }
          bus := if s.sig.io then (ir.extractLsb' 0 4).setWidth 8 else s.bus }

/-- R70: capture on a rising edge with the enable, then the clear, then, for A alone, the drive. -/
def Obligations.GenericRegisterRule : Prop :=
  ∀ s : State,
    bBoard s =
      { s with
        b := if s.rst then 0 else if s.prev.b = false ∧ s.clk = true ∧ s.sig.bi = true then s.bus else s.b
        prev := { s.prev with b := s.clk } } ∧
    outBoard s =
      { s with
        out := if s.rst then 0 else if s.prev.out = false ∧ s.clk = true ∧ s.sig.oi = true then s.bus else s.out
        prev := { s.prev with out := s.clk } } ∧
    ∃ a : Byte,
      a = (if s.rst then 0 else if s.prev.a = false ∧ s.clk = true ∧ s.sig.ai = true then s.bus else s.a) ∧
      aBoard s =
        { s with a := a, prev := { s.prev with a := s.clk }, bus := if s.sig.ao then a else s.bus }

/-- R32: the addressed cell takes the bus on a rising edge with RI, no other cell changes, and with RO the cell, after
the write, drives the bus; the clear does not reach it. -/
def Obligations.MemoryBoardRule : Prop :=
  ∀ s : State, ∃ m : Memory,
    memoryBoard s =
      { s with mem := m, prev := { s.prev with mem := s.clk }, bus := if s.sig.ro then m.read s.mar else s.bus } ∧
    ∀ x : Nibble,
      m.read x = if s.prev.mem = false ∧ s.clk = true ∧ s.sig.ri = true ∧ x = s.mar then s.bus else s.mem.read x

/-- R84: result and pending flags every tick, the committed flags on a rising edge with FI, the clear, the drive. -/
def Obligations.ArithmeticUnitRule : Prop :=
  ∀ s : State, ∃ (r : Byte) (pc pz : Bool),
    r.toNat = (if s.sig.su then (s.a.toNat + 256 - s.b.toNat) % 256 else (s.a.toNat + s.b.toNat) % 256) ∧
    (pc = true ↔ if s.sig.su then s.a.toNat < s.b.toNat else s.a.toNat + s.b.toNat > 255) ∧
    (pz = true ↔ r.toNat = 0) ∧
    aluBoard s =
      { s with
        aluResult := r
        pendC := pc
        pendZ := pz
        c := if s.rst then false else if s.prev.alu = false ∧ s.clk = true ∧ s.sig.fi = true then pc else s.c
        z := if s.rst then false else if s.prev.alu = false ∧ s.clk = true ∧ s.sig.fi = true then pz else s.z
        bus := if s.sig.eo then r else s.bus
        prev := { s.prev with alu := s.clk } }

/-! ### The tick -/

/-- Derived (10 R24, "After any tick, every prev_X equals clk"; 40 R66, "The decode table asserts at most one drive
enable … in any tick, and none in a reset tick" and "no control word asserts J and CE together, nor RI and RO"). -/
def Obligations.AtMostOneDriverInAnyTick : Prop :=
  ∀ s : State,
    (tick s).prev = Prev.all (tick s).clk ∧ (tick s).sig.drivers ≤ 1 ∧ ((tick s).rst = true → (tick s).sig.drivers = 0) ∧
      ¬((tick s).sig.j = true ∧ (tick s).sig.ce = true) ∧ ¬((tick s).sig.ri = true ∧ (tick s).sig.ro = true)

/-- Derived (40 R71, the spec's inference "The only change a falling-edge tick makes is to clk, the ControlUnit's
state, sig, bus, …"): a falling-edge tick advances the micro-step and captures nothing; the rising-edge tick after it
is in the same micro-step with the same signals. -/
def Obligations.FallingEdgeTickCapturesNothing : Prop :=
  ∀ s : State, s.Running → s.clk = true →
    let t := tick s
    t.clk = false ∧ t.microStep = (if s.microStep = 4 then 0 else s.microStep + 1) ∧
    t.regs = { s.regs with halt := t.halt } ∧ (∀ x : Nibble, t.mem.read x = s.mem.read x) ∧
    (t.halt = true ↔ t.microStep = 2 ∧ opcodeOf s.ir = 0xF) ∧
    (t.halt = false →
      (tick t).clk = true ∧ (tick t).microStep = t.microStep ∧ (tick t).sig = t.sig ∧ (tick t).halt = false)

/-- Derived (40 R72, the spec's inference "has the same effect as this simultaneous transfer"): in a rising-edge tick
that follows its falling-edge tick, or is micro-step 0 right after a reset, the boards in their order do what a
simultaneous transfer does of the value the one asserted driver presents at the start of the tick. -/
def Obligations.RisingTickIsSimultaneousTransfer : Prop :=
  ∀ s : State, s.Running → s.clk = false →
    ((∃ r : State, r.Running ∧ r.clk = true ∧ tick r = s) ∨ s.microStep = 0) →
    let t := tick s
    let g := t.sig
    let v := presented g s
    g = controlTable s.microStep (opcodeOf s.ir) s.c s.z ∧
    t.mar = (if g.mi then v.setWidth 4 else s.mar) ∧
    t.ir = (if g.ii then v else s.ir) ∧
    t.a = (if g.ai then v else s.a) ∧
    t.b = (if g.bi then v else s.b) ∧
    t.out = (if g.oi then v else s.out) ∧
    (∀ x : Nibble, t.mem.read x = if g.ri = true ∧ x = s.mar then v else s.mem.read x) ∧
    t.pc = (if g.j then v.setWidth 4 else if g.ce then s.pc + 1 else s.pc) ∧
    t.c = (if g.fi then (if g.su then decide (s.a.toNat < s.b.toNat) else decide (s.a.toNat + s.b.toNat > 255)) else s.c) ∧
    t.z = (if g.fi then (if g.su then decide (s.a = s.b) else decide (s.a + s.b = 0)) else s.z)

/-- Derived (42 R85, the spec's inference "The committed flags change only in the rising-edge tick of micro-step 4 of
ADD and SUB … and under clear"), with the values they take there. -/
def Obligations.FlagsChangeOnlyOnCommitOrClear : Prop :=
  ∀ s : State,
    ((tick s).c ≠ s.c ∨ (tick s).z ≠ s.z) →
    ((tick s).rst = true ∧ (tick s).c = false ∧ (tick s).z = false) ∨
    (s.prev.alu = false ∧ (tick s).clk = true ∧ (tick s).microStep = 4 ∧
      ((opcodeOf s.ir = 0x2 ∧ (tick s).c = decide (s.a.toNat + s.b.toNat > 255) ∧ (tick s).z = decide (s.a + s.b = 0)) ∨
       (opcodeOf s.ir = 0x3 ∧ (tick s).c = decide (s.a.toNat < s.b.toNat) ∧ (tick s).z = decide (s.a = s.b))))

/-- Derived (20 R31, the spec's inference "No other instruction reads or writes memory", with R32): a tick changes a
cell only in the rising-edge tick of micro-step 3 of STA, only the cell MAR addresses, and to the value on the bus. -/
def Obligations.MemoryChangesOnlyInStoreTick : Prop :=
  ∀ (s : State) (x : Nibble), (tick s).mem.read x ≠ s.mem.read x →
    s.rstHold = 0 ∧ s.prev.mem = false ∧ (tick s).clk = true ∧ (tick s).microStep = 3 ∧ opcodeOf s.ir = 0x4 ∧
      x = s.mar ∧ (tick s).mem.read x = s.bus

/-- R20: the halt latch after a tick, and the clock while it is set. -/
def Obligations.HaltLatchSetByHltClearedByReset : Prop :=
  ∀ s : State,
    ((tick s).halt = true ↔
      s.rstHold = 0 ∧ (s.halt = true ∨ ((tick s).microStep = 2 ∧ opcodeOf s.ir = 0xF))) ∧
    (s.halt = true → (tick s).clk = false)

/-- Derived (44 R96, "Only reset leaves the halted state"): with no reset pending, a halted core, in whatever state the
rest of it is, is after any number of ticks still halted, with the clock low and every register, flag and cell as it
was. -/
def Obligations.HaltedCoreStaysHalted : Prop :=
  ∀ (n : Nat) (s : State), s.halt = true → s.rstHold = 0 →
    (ticks (n + 1) s).halt = true ∧ (ticks (n + 1) s).clk = false ∧ (ticks (n + 1) s).regs = s.regs ∧
      ∀ x : Nibble, (ticks (n + 1) s).mem.read x = s.mem.read x

/-- Derived (60 R109, the spec's inference "In it, a tick changes no state element"; the model's step of a halted core,
log 1). -/
def Obligations.FrozenCoreIsUnchangedByTickAndStep : Prop :=
  ∀ s : State, s.Frozen → tick s = s ∧ step s = .next s ∧ fullStep s = s

/-! ### Reset -/

/-- R110: the reset operation sets the latch and the hold-count and changes nothing else, and the boards see the
latch asserted in exactly the two ticks after it, each of which zeroes the micro-step and the halt latch. -/
def Obligations.ResetLatchHeldExactlyTwoTicks : Prop :=
  ∀ s : State,
    resetOp s = { s with rst := true, rstHold := 2 } ∧
    (tick (resetOp s)).rst = true ∧ (tick (resetOp s)).microStep = 0 ∧ (tick (resetOp s)).halt = false ∧
    (tick (tick (resetOp s))).rst = true ∧ (tick (tick (resetOp s))).microStep = 0 ∧ (tick (tick (resetOp s))).halt = false ∧
    (tick (tick (tick (resetOp s)))).rst = false

/-- Derived (70 R111 and 10 R23; R28, to which R111 refers, marks its rows for `bus` and `mem` as inference): in both
ticks of `reset()`, from every state, the reset latch reaches every board, every register and committed flag is
cleared, no pulse signal is asserted, and the bus and every cell keep their values. -/
def Obligations.HostResetClearsRegistersKeepsMemory : Prop :=
  ∀ s t : State, (t = tick (resetOp s) ∨ t = hostReset s) →
    t.regs = { a := 0, b := 0, out := 0, ir := 0, mar := 0, pc := 0, c := false, z := false, halt := false } ∧
    t.rst = true ∧ t.microStep = 0 ∧ t.sig = {} ∧ t.bus = s.bus ∧ ∀ x : Nibble, t.mem.read x = s.mem.read x

/-- Derived (10 R28, whose rows for `clk`, `prev_X`, the ALU's outputs and `bus` the spec marks as its own inference):
the whole state after `reset()`. -/
def Obligations.HostResetGivesTheTableState : Prop :=
  ∀ s : State,
    hostReset s =
      { clk := if s.halt then true else s.clk
        bus := s.bus
        a := 0
        b := 0
        out := 0
        ir := 0
        mar := 0
        pc := 0
        mem := s.mem
        aluResult := 0
        pendC := false
        pendZ := true
        c := false
        z := false
        microStep := 0
        halt := false
        rst := true
        rstHold := 0
        sig := {}
        prev := Prev.all (if s.halt then true else s.clk) }

/-- The model's choice (logs 2, 3, 4): `State.reset` is what `reset()` leaves of every power-on state with the clock
low, running, the bus 0 and every cell 0, whatever its registers hold. -/
def Obligations.ModelResetIsHostResetOfNamedPowerOn : Prop :=
  ∀ s : State, s.clk = false → s.halt = false → s.bus = 0 → s.mem.wf = true → (∀ x : Nibble, s.mem.read x = 0) →
    hostReset s = State.reset

/-- Derived (70 R112, whose derivation is the spec's): resetting twice is resetting once, in every element. -/
def Obligations.HostResetIsIdempotent : Prop :=
  ∀ s : State, hostReset (hostReset s) = hostReset s

/-- Derived (70 R113, the spec's inference "the architectural results of every later instruction do not depend on the
clock phase reset left", with 92 D9; the step is the model's, log 1): what the first instruction after a reset leaves
depends on memory alone, on no power-on register, flag, latch, bus value or clock phase. -/
def Obligations.FirstInstructionAfterResetDependsOnMemoryAlone : Prop :=
  ∀ s s' : State, s.mem = s'.mem → step (hostReset s) = step (hostReset s')

/-- Derived (70 R113): after a reset that leaves the clock low the first boundary comes after 9 ticks and no fewer,
after one that leaves it high after 8, unless cell 0 holds a HLT. -/
def Obligations.FirstBoundaryAfterResetInNineOrEightTicks : Prop :=
  ∀ s : State, opcodeOf (s.mem.read 0) ≠ 0xF →
    let r := hostReset s
    (r.clk = false → runToInstructionBoundary 8 r = none ∧ runToInstructionBoundary 9 r = some (ticks 9 r) ∧
      step r = .next (ticks 9 r)) ∧
    (r.clk = true → runToInstructionBoundary 7 r = none ∧ runToInstructionBoundary 8 r = some (ticks 8 r) ∧
      step r = .next (ticks 8 r))

/-- Derived (70 R113, "the first instruction executed is the one in mem[0]"; the step is the model's, log 1). -/
def Obligations.FirstInstructionAfterResetIsCellZero : Prop :=
  ∀ s : State, ∃ f : State, f.FetchDone ∧ f.ir = s.mem.read 0 ∧ f.mar = 0 ∧ f.pc = 1 ∧
    f.a = 0 ∧ f.b = 0 ∧ f.out = 0 ∧ f.c = false ∧ f.z = false ∧ f.mem = s.mem ∧
    step (hostReset s) = exec (decode (s.mem.read 0)) f

/-! ### Memory and host operations -/

/-- R44: `load_memory` writes the first min(n, 16) bytes, byte i to cell i, leaves every other cell, changes nothing
but memory, and reports truncation exactly for more than 16 bytes. -/
def Obligations.LoadMemoryWritesFirstSixteenBytes : Prop :=
  ∀ (bytes : List Byte) (s : State),
    ((loadMemory bytes s).2 = true ↔ bytes.length > 16) ∧
    (loadMemory bytes s).1 = { s with mem := (loadMemory bytes s).1.mem } ∧
    ∀ x : Nibble, (loadMemory bytes s).1.mem.read x = (bytes[x.toNat]?).getD (s.mem.read x)

/-- Derived (70 R118, the spec's inference on a load "between the falling-edge and rising-edge ticks of a micro-step
that reads memory"): the instruction register captures the cell as loaded. -/
def Obligations.LoadBetweenTicksReachesTheFetch : Prop :=
  ∀ (bytes : List Byte) (s : State), s.Running → s.clk = false → s.microStep = 1 →
    (tick (loadMemory bytes s).1).ir = (bytes[s.mar.toNat]?).getD (s.mem.read s.mar)

/-- R26: what the accessors show; `observe` is a function of the state and changes none. -/
def Obligations.AccessorsShowTheState : Prop :=
  ∀ s : State,
    let o := observe s
    o.bus = s.bus ∧ o.a = s.a ∧ o.b = s.b ∧ o.out = s.out ∧ o.ir = s.ir ∧ o.pc = s.pc ∧ o.c = s.c ∧ o.z = s.z ∧
    o.halt = s.halt ∧ o.clk = s.clk ∧ o.step = s.microStep ∧ o.rst = s.rst ∧ o.aluResult = s.aluResult ∧
    o.pendC = s.pendC ∧ o.pendZ = s.pendZ ∧ o.mar.toNat = s.mar.toNat ∧
    o.cells.length = 16 ∧ ∀ x : Nibble, o.cells[x.toNat]? = some (s.mem.read x)

/-! ### Fetch and step -/

/-- The step runs the decoded instruction: where a fetch comes next, the fetch puts the byte at the fetch address into
IR, its address into MAR, advances PC by one modulo 16 and changes no other register and no cell, and the step is then
`exec` of what that byte decodes to. Derived (40 R73, R74; the start states of the step are the model's, log 1). -/
def Obligations.StepFetchesThenRunsDecodedInstruction : Prop :=
  ∀ (s : State) (n : Nat), s.fetchTicks = some n →
    let f := ticks n s
    f.FetchDone ∧
    f.regs = { s.regs with ir := s.mem.read s.fetchAddr, mar := s.fetchAddr, pc := s.pc + 1 } ∧
    (∀ x : Nibble, f.mem.read x = s.mem.read x) ∧
    step s = exec (decode (s.mem.read s.fetchAddr)) f

/-- Derived (40 R74, the spec's inference "the next ten ticks perform …"; the step is the model's, log 1): from every
boundary of a running core the model's step, fetch and then `exec` of the decoded instruction, is ten ticks of the
boards, in every element of the state. -/
def Obligations.StepFromBoundaryIsTenTicks : Prop :=
  ∀ s : State, s.Boundary →
    step s = .next (ticks 10 s) ∧ step s = exec (decode (s.mem.read s.pc)) (ticks 4 s)

/-- The model's choice (log 1), resting on 60 R98 ("No instruction faults"): from every state whatever the step
answers a next state, which some number of ticks between 1 and 16 reaches, and which is at the instruction boundary or
halted. -/
def Obligations.EveryStepIsTicksToBoundaryOrHalt : Prop :=
  ∀ s : State, ∃ n : Nat, 1 ≤ n ∧ n ≤ 16 ∧ step s = .next (ticks n s) ∧
    ((ticks n s).atBoundary = true ∨ (ticks n s).halt = true)

/-- Derived (40 R77; 70 R120, "10" ticks for every instruction but HLT): from a boundary, `run_to_instruction_boundary`
takes exactly ten ticks and leaves what the step leaves. -/
def Obligations.RunToBoundaryTakesTenTicks : Prop :=
  ∀ s : State, s.Boundary → opcodeOf (s.mem.read s.pc) ≠ 0xF →
    runToInstructionBoundary 9 s = none ∧ runToInstructionBoundary 10 s = some (ticks 10 s) ∧
    step s = .next (ticks 10 s) ∧ (ticks 10 s).Boundary

/-- Derived (40 R78, 70 R120, "5 ticks from the falling-edge tick of micro-step 0 to halt = 1"): from a boundary before
a HLT, `run_to_halt` takes exactly five ticks and leaves what the step leaves, the frozen state of 44 R96. -/
def Obligations.RunToHaltTakesFiveTicks : Prop :=
  ∀ s : State, s.Boundary → opcodeOf (s.mem.read s.pc) = 0xF →
    runToHalt 4 s = none ∧ ∃ t : State, runToHalt 5 s = some t ∧ step s = .next t ∧ t.Frozen ∧
      t.regs = { s.regs with mar := s.pc, ir := s.mem.read s.pc, pc := s.pc + 1, halt := true } ∧
      ∀ x : Nibble, t.mem.read x = s.mem.read x

/-- Derived (40 R78, "with a program that never executes HLT it never returns"; 43 R90, "loops forever"): from a
boundary before a JMP to its own address the step leads back to a boundary at that address with the same memory, and
`run_to_halt` exhausts every bound. -/
def Obligations.JmpToItselfNeverHalts : Prop :=
  ∀ (fuel : Nat) (s : State), s.Boundary → decode (s.mem.read s.pc) = .jmp s.pc →
    runToHalt fuel s = none ∧
    ∃ t : State, step s = .next t ∧ t.Boundary ∧ t.pc = s.pc ∧ ∀ x : Nibble, t.mem.read x = s.mem.read x

/-- Derived (40 R77, "a call made while halted … never returns"; R78 and 92 D8): on the frozen core
`run_to_instruction_boundary` exhausts every bound, and `run_to_halt` returns after one tick with nothing changed. -/
def Obligations.RunOperationsOnHaltedCore : Prop :=
  ∀ (fuel : Nat) (s : State), s.Frozen →
    runToInstructionBoundary fuel s = none ∧ runToHalt (fuel + 1) s = some s

/-- Derived (40 R74; log 1): inside an instruction, right after its fetch, the step is `exec` of the instruction in
IR. -/
def Obligations.StepAfterFetchRunsInstructionInIr : Prop :=
  ∀ s : State, s.FetchDone → step s = exec (decode s.ir) s

/-- The model's choice (log 5): after `withFetchWord` the very next step runs that instruction, from every state. -/
def Obligations.PlacedWordIsTheNextInstructionRun : Prop :=
  ∀ (s : State) (w : Nat), w < 256 →
    ∃ f : State, f.FetchDone ∧ f.ir.toNat = w ∧ f.a = s.a ∧ f.b = s.b ∧ f.c = s.c ∧ f.z = s.z ∧
      decodeTableWord 8 w = some (decode f.ir) ∧ step (s.withFetchWord 8 w) = exec (decode f.ir) f

/-! ### The instructions, from the end of the fetch: MAR holds the instruction's address, PC the next one (R73) -/

/-- R81: LDA. The pending flags follow the new A, and C and Z keep their values. -/
def Obligations.LdaLoadsTheAddressedCell : Prop :=
  ∀ (addr : Nibble) (s : State), s.FetchDone →
    decode (joinNibbles 0x1 addr) = .lda addr ∧
    MicroSteps (.lda addr) (fun _ _ => { io := true, mi := true }) (fun _ _ => { ro := true, ai := true }) noSignal ∧
    ∃ t : State, Sys2Proof.Machine.exec (.lda addr) s = .next t ∧ t.Boundary ∧
      t = ticks 6 { s with ir := joinNibbles 0x1 addr } ∧
      t.regs = { s.regs with ir := joinNibbles 0x1 addr, mar := addr, a := s.mem.read addr } ∧
      t.pendC = decide ((s.mem.read addr).toNat + s.b.toNat > 255) ∧ t.pendZ = decide (s.mem.read addr + s.b = 0) ∧
      ∀ x : Nibble, t.mem.read x = s.mem.read x

/-- R82: STA. The address stored to is the operand, as MAR captures it; the cell is written in the fourth tick, the
rising-edge tick of micro-step 3. -/
def Obligations.StaStoresAccumulator : Prop :=
  ∀ (addr : Nibble) (s : State), s.FetchDone →
    decode (joinNibbles 0x4 addr) = .sta addr ∧
    MicroSteps (.sta addr) (fun _ _ => { io := true, mi := true }) (fun _ _ => { ao := true, ri := true }) noSignal ∧
    ∃ t : State, Sys2Proof.Machine.exec (.sta addr) s = .next t ∧ t.Boundary ∧
      t = ticks 6 { s with ir := joinNibbles 0x4 addr } ∧
      t.regs = { s.regs with ir := joinNibbles 0x4 addr, mar := addr } ∧
      t.mem.read addr = s.a ∧ (∀ x : Nibble, x ≠ addr → t.mem.read x = s.mem.read x) ∧
      (∀ x : Nibble, (ticks 3 { s with ir := joinNibbles 0x4 addr }).mem.read x = s.mem.read x) ∧
      (ticks 4 { s with ir := joinNibbles 0x4 addr }).mem.read addr = s.a

/-- R83: LDI. -/
def Obligations.LdiLoadsZeroExtendedImmediate : Prop :=
  ∀ (imm : Nibble) (s : State), s.FetchDone →
    decode (joinNibbles 0x5 imm) = .ldi imm ∧
    MicroSteps (.ldi imm) (fun _ _ => { io := true, ai := true }) noSignal noSignal ∧
    ∃ t : State, Sys2Proof.Machine.exec (.ldi imm) s = .next t ∧ t.Boundary ∧
      t = ticks 6 { s with ir := joinNibbles 0x5 imm } ∧
      t.regs = { s.regs with ir := joinNibbles 0x5 imm, a := imm.setWidth 8 } ∧
      ∀ x : Nibble, t.mem.read x = s.mem.read x

/-- R87: ADD, with the exact sum. -/
def Obligations.AddSumsAndSetsCarryAndZero : Prop :=
  ∀ (addr : Nibble) (s : State), s.FetchDone →
    let sum := s.a.toNat + (s.mem.read addr).toNat
    decode (joinNibbles 0x2 addr) = .add addr ∧
    MicroSteps (.add addr) (fun _ _ => { io := true, mi := true }) (fun _ _ => { ro := true, bi := true })
      (fun _ _ => { eo := true, ai := true, fi := true }) ∧
    ∃ t : State, Sys2Proof.Machine.exec (.add addr) s = .next t ∧ t.Boundary ∧
      t = ticks 6 { s with ir := joinNibbles 0x2 addr } ∧
      t.regs = { s.regs with
        ir := joinNibbles 0x2 addr
        mar := addr
        b := s.mem.read addr
        a := BitVec.ofNat 8 (sum % 256)
        c := decide (sum > 255)
        z := decide (sum % 256 = 0) } ∧
      ∀ x : Nibble, t.mem.read x = s.mem.read x

/-- R88: SUB, with C the unsigned borrow. -/
def Obligations.SubDiffersAndSetsBorrowAndZero : Prop :=
  ∀ (addr : Nibble) (s : State), s.FetchDone →
    let m := s.mem.read addr
    decode (joinNibbles 0x3 addr) = .sub addr ∧
    MicroSteps (.sub addr) (fun _ _ => { io := true, mi := true }) (fun _ _ => { ro := true, bi := true })
      (fun _ _ => { eo := true, ai := true, su := true, fi := true }) ∧
    ∃ t : State, Sys2Proof.Machine.exec (.sub addr) s = .next t ∧ t.Boundary ∧
      t = ticks 6 { s with ir := joinNibbles 0x3 addr } ∧
      t.regs = { s.regs with
        ir := joinNibbles 0x3 addr
        mar := addr
        b := m
        a := BitVec.ofInt 8 ((s.a.toNat : Int) - (m.toNat : Int))
        c := decide (s.a.toNat < m.toNat)
        z := decide (s.a = m) } ∧
      ¬(t.c = true ∧ t.z = true) ∧
      ∀ x : Nibble, t.mem.read x = s.mem.read x

/-- R90: JMP. -/
def Obligations.JmpLoadsProgramCounter : Prop :=
  ∀ (addr : Nibble) (s : State), s.FetchDone →
    decode (joinNibbles 0x6 addr) = .jmp addr ∧
    MicroSteps (.jmp addr) (fun _ _ => { io := true, j := true }) noSignal noSignal ∧
    ∃ t : State, Sys2Proof.Machine.exec (.jmp addr) s = .next t ∧ t.Boundary ∧
      t = ticks 6 { s with ir := joinNibbles 0x6 addr } ∧
      t.regs = { s.regs with ir := joinNibbles 0x6 addr, pc := addr } ∧
      ∀ x : Nibble, t.mem.read x = s.mem.read x

/-- R91: JC, taken and not taken; IO drives the bus either way. -/
def Obligations.JcJumpsExactlyOnCarry : Prop :=
  ∀ (addr : Nibble) (s : State), s.FetchDone →
    decode (joinNibbles 0x7 addr) = .jc addr ∧
    MicroSteps (.jc addr) (fun c _ => { io := true, j := c }) noSignal noSignal ∧
    ∃ t : State, Sys2Proof.Machine.exec (.jc addr) s = .next t ∧ t.Boundary ∧
      t = ticks 6 { s with ir := joinNibbles 0x7 addr } ∧
      t.regs = { s.regs with ir := joinNibbles 0x7 addr, pc := if s.c = true then addr else s.pc } ∧ t.bus = addr.setWidth 8 ∧
      ∀ x : Nibble, t.mem.read x = s.mem.read x

/-- R92: JZ, taken and not taken; IO drives the bus either way. -/
def Obligations.JzJumpsExactlyOnZero : Prop :=
  ∀ (addr : Nibble) (s : State), s.FetchDone →
    decode (joinNibbles 0x8 addr) = .jz addr ∧
    MicroSteps (.jz addr) (fun _ z => { io := true, j := z }) noSignal noSignal ∧
    ∃ t : State, Sys2Proof.Machine.exec (.jz addr) s = .next t ∧ t.Boundary ∧
      t = ticks 6 { s with ir := joinNibbles 0x8 addr } ∧
      t.regs = { s.regs with ir := joinNibbles 0x8 addr, pc := if s.z = true then addr else s.pc } ∧ t.bus = addr.setWidth 8 ∧
      ∀ x : Nibble, t.mem.read x = s.mem.read x

/-- R93: NOP, with any operand. The bus keeps what the fetch left on it. -/
def Obligations.NopChangesNothingBeyondTheFetch : Prop :=
  ∀ (x : Nibble) (s : State), s.FetchDone →
    decode (joinNibbles 0x0 x) = .nop x ∧
    MicroSteps (.nop x) noSignal noSignal noSignal ∧
    ∃ t : State, Sys2Proof.Machine.exec (.nop x) s = .next t ∧ t.Boundary ∧
      t = ticks 6 { s with ir := joinNibbles 0x0 x } ∧
      t.regs = { s.regs with ir := joinNibbles 0x0 x } ∧ t.bus = s.bus ∧
      ∀ y : Nibble, t.mem.read y = s.mem.read y

/-- R94: the five unrecognised opcodes, with any operand, are no operations. -/
def Obligations.UnrecognisedOpcodesAreNoOps : Prop :=
  ∀ (x : Nibble) (s : State), s.FetchDone →
    ∀ p ∈ [((0x9 : Nibble), Instr.unrecognised9 x), (0xA, .unrecognisedA x), (0xB, .unrecognisedB x),
        (0xC, .unrecognisedC x), (0xD, .unrecognisedD x)],
      decode (joinNibbles p.1 x) = p.2 ∧
      MicroSteps p.2 noSignal noSignal noSignal ∧
      ∃ t : State, Sys2Proof.Machine.exec p.2 s = .next t ∧ t.Boundary ∧
        t = ticks 6 { s with ir := joinNibbles p.1 x } ∧
        t.regs = { s.regs with ir := joinNibbles p.1 x } ∧
        ∀ y : Nibble, t.mem.read y = s.mem.read y

/-- R95: OUT, with any operand. -/
def Obligations.OutCopiesAccumulator : Prop :=
  ∀ (x : Nibble) (s : State), s.FetchDone →
    decode (joinNibbles 0xE x) = .out x ∧
    MicroSteps (.out x) (fun _ _ => { ao := true, oi := true }) noSignal noSignal ∧
    ∃ t : State, Sys2Proof.Machine.exec (.out x) s = .next t ∧ t.Boundary ∧
      t = ticks 6 { s with ir := joinNibbles 0xE x } ∧
      t.regs = { s.regs with ir := joinNibbles 0xE x, out := s.a } ∧
      ∀ y : Nibble, t.mem.read y = s.mem.read y

/-- R96: HLT, with any operand: after one tick of the execute phase the frozen state, which no later tick changes. -/
def Obligations.HltFreezesTheCore : Prop :=
  ∀ (x : Nibble) (s : State), s.FetchDone →
    decode (joinNibbles 0xF x) = .hlt x ∧
    MicroSteps (.hlt x) noSignal noSignal noSignal ∧
    ∃ t : State, Sys2Proof.Machine.exec (.hlt x) s = .next t ∧ t.Frozen ∧
      t = tick { s with ir := joinNibbles 0xF x } ∧
      t.regs = { s.regs with ir := joinNibbles 0xF x, halt := true } ∧ t.bus = s.bus ∧
      (∀ y : Nibble, t.mem.read y = s.mem.read y) ∧ ∀ n : Nat, ticks n t = t

/-! ### Whole-machine rules -/

/-- Derived (10 R17, "No other instruction writes C or Z"; 10 R13, the table of writers; 20 R31; 43 R89, "The only
control transfers"; 44 R97): which instructions write C, Z, B, A, OUT, PC beyond the fetch, a memory cell, and the halt
latch. MAR and IR are not among these places: the statement of each instruction gives their values. -/
def Obligations.OnlyTheNamedInstructionsWriteEachPlace : Prop :=
  ∀ (i : Instr) (s t : State), s.FetchDone → Sys2Proof.Machine.exec i s = .next t →
    ((t.c ≠ s.c ∨ t.z ≠ s.z ∨ t.b ≠ s.b) → i.opcode = 0x2 ∨ i.opcode = 0x3) ∧
    (t.a ≠ s.a → i.opcode = 0x1 ∨ i.opcode = 0x2 ∨ i.opcode = 0x3 ∨ i.opcode = 0x5) ∧
    (t.out ≠ s.out → i.opcode = 0xE) ∧
    (t.pc ≠ s.pc → i.opcode = 0x6 ∨ i.opcode = 0x7 ∨ i.opcode = 0x8) ∧
    ((∃ x, t.mem.read x ≠ s.mem.read x) → i.opcode = 0x4) ∧
    (t.halt = true ↔ i.opcode = 0xF)

/-- Derived (20 R43 and 70 R117): an STA to the cell of the next instruction makes the stored byte the next
instruction run. -/
def Obligations.StoreToNextCellIsTheNextInstruction : Prop :=
  ∀ (s : State) (addr : Nibble), s.Boundary → decode (s.mem.read s.pc) = .sta addr → addr = s.pc + 1 →
    ∃ t f : State, step s = .next t ∧ t.Boundary ∧ f = ticks 4 t ∧ f.ir = s.a ∧ step t = exec (decode s.a) f

/-- Derived (20 R39, "each read returns the value of the most recent write to its cell"): an LDA right after an STA
reads the stored value from the stored cell and the earlier value from every other. -/
def Obligations.LoadAfterStoreReadsMostRecentWrite : Prop :=
  ∀ (s t : State) (x y : Nibble), s.Boundary → decode (s.mem.read s.pc) = .sta x → step s = .next t →
    decode (t.mem.read t.pc) = .lda y →
    ∃ u : State, step t = .next u ∧ u.a = if y = x then s.a else s.mem.read y

/-- Derived (10 R11 and R25, "a model must not read a meaning into that kept value"; 40 R74; the step is the model's,
log 1): two running cores at the
boundary that agree in A, B, OUT, PC, C, Z and memory take the same step, in every element of the state: the bus, IR,
MAR, the ALU's outputs, the latched signals and the reset latch carry nothing over. -/
def Obligations.StepDependsOnProgramStateAlone : Prop :=
  ∀ s s' : State, s.Boundary → s'.Boundary → s.a = s'.a → s.b = s'.b → s.out = s'.out → s.pc = s'.pc →
    s.c = s'.c → s.z = s'.z → s.mem = s'.mem → step s = step s'

/-- The invariant of Sys2Proof/Safety.lean holds in every state a host reset leaves of a canonical memory, and in
`State.reset`. Derived (10 R23, R24, R28; the canonical memory is the model's). -/
def Obligations.ResetEstablishesInvariant : Prop :=
  State.reset.Inv ∧ ∀ s : State, s.mem.wf = true → (hostReset s).Inv

/-- Every tick keeps the invariant, a tick with a reset pending among them. Derived (10 R20, R23, R24, 40 R66; the
canonical memory is the model's). -/
def Obligations.TickKeepsInvariant : Prop :=
  ∀ s : State, s.Inv → (tick s).Inv

/-- Every step keeps the invariant. Derived (10 R20, R23, R24, 40 R66; the step and the canonical memory are the
model's, log 1). -/
def Obligations.StepKeepsInvariant : Prop :=
  ∀ s t : State, s.Inv → step s = .next t → t.Inv
end

