-- ==== Sys2Proof/Laws/Encoding.lean ====
section
/-! SUPPORT. The two nibbles of a byte, and what the decode table finds in an encoded instruction. -/

namespace Sys2Proof

@[simp] theorem opcodeOf_joinNibbles (hi lo : Nibble) : opcodeOf (joinNibbles hi lo) = hi := by
  revert hi lo; decide

@[simp] theorem operandOf_joinNibbles (hi lo : Nibble) : operandOf (joinNibbles hi lo) = lo := by
  revert hi lo; decide

@[simp] theorem joinNibbles_split (b : Byte) : joinNibbles (opcodeOf b) (operandOf b) = b := by
  revert b; decide

@[simp] theorem opcodeOf_encode (i : Instr) : opcodeOf (encode i) = i.opcode := opcodeOf_joinNibbles _ _

@[simp] theorem operandOf_encode (i : Instr) : operandOf (encode i) = i.operand := operandOf_joinNibbles _ _

/-- Every instruction is well-formed: the operand field has 4 bits (R55). -/
theorem Instr.wf_all (i : Instr) : i.wf = true := by
  have h : i.operand.toNat < 16 := i.operand.isLt
  simp only [Instr.wf, operandInRange, decide_eq_true_eq]
  omega

@[simp] theorem Machine.lowNibble_zext8 (v : Nibble) : Machine.lowNibble (Machine.zext8 v) = v := by
  revert v; decide

end Sys2Proof
end

