-- ==== Sys2Proof/Laws/Memory.lean ====
section
/-! SUPPORT. Memory: what one write does to every read, and that every operation keeps the canonical form. -/

namespace Sys2Proof.Machine

theorem Memory.lookup_erase (m : Memory) (k j : Nat) :
    Memory.lookup (Memory.erase m k) j = if k = j then Config.memInit else Memory.lookup m j := by
  induction m with
  | nil => simp [Memory.erase, Memory.lookup]
  | cons c m ih =>
    obtain ⟨k', v⟩ := c
    by_cases h : k' = k
    · subst h; by_cases hj : k' = j <;> simp_all [Memory.erase, Memory.lookup]
    · by_cases hj : k' = j
      · subst hj; simp [Memory.erase, Memory.lookup, h, Ne.symm h]
      · simp [Memory.erase, Memory.lookup, h, hj, ih]

theorem Memory.not_listed_erase (m : Memory) (k : Nat) : ∀ c ∈ Memory.erase m k, c.1 ≠ k := by
  induction m with
  | nil => simp [Memory.erase]
  | cons c m ih =>
    obtain ⟨k', v⟩ := c
    by_cases h : k' = k
    · simpa [Memory.erase, h] using ih
    · simpa [Memory.erase, h] using ih

theorem Memory.lookup_place (m : Memory) (k j : Nat) (v : Byte) (h : ∀ c ∈ m, c.1 ≠ k) :
    Memory.lookup (Memory.place m k v) j = if k = j then v else Memory.lookup m j := by
  induction m with
  | nil => simp [Memory.place, Memory.lookup]
  | cons c m ih =>
    obtain ⟨k', v'⟩ := c
    have hk : k' ≠ k := h (k', v') (by simp)
    have hm : ∀ c ∈ m, c.1 ≠ k := fun c hc => h c (by simp [hc])
    by_cases hlt : k < k'
    · simp [Memory.place, Memory.lookup, hlt]
    · by_cases hj : k' = j
      · subst hj; simp [Memory.place, Memory.lookup, hlt, Ne.symm hk]
      · simp [Memory.place, Memory.lookup, hlt, hj, ih hm]

/-- All a write does: the written cell reads as the value, every other cell as before (R36). -/
theorem Memory.read_write (m : Memory) (x y : Nibble) (v : Byte) :
    (m.write x v).read y = if x = y then v else m.read y := by
  unfold Memory.write Memory.read
  split
  · next h => subst h; rw [Memory.lookup_erase]; simp only [BitVec.toNat_inj]
  · rw [Memory.lookup_place _ _ _ _ (Memory.not_listed_erase _ _), Memory.lookup_erase]
    by_cases h : x = y <;> simp [h, BitVec.toNat_inj]

@[simp] theorem Memory.read_write_same (m : Memory) (x : Nibble) (v : Byte) : (m.write x v).read x = v := by
  simp [Memory.read_write]

theorem Memory.read_write_other (m : Memory) (x y : Nibble) (v : Byte) (h : x ≠ y) :
    (m.write x v).read y = m.read y := by
  simp [Memory.read_write, h]

theorem Memory.wfFrom_mono {m : Memory} {lo lo' : Nat} (hle : lo ≤ lo') (h : Memory.wfFrom lo' m = true) :
    Memory.wfFrom lo m = true := by
  cases m with
  | nil => rfl
  | cons c m =>
    simp only [Memory.wfFrom, Bool.and_eq_true, decide_eq_true_eq] at h ⊢
    exact ⟨⟨⟨hle.trans h.1.1.1, h.1.1.2⟩, h.1.2⟩, h.2⟩

theorem Memory.erase_wfFrom {m : Memory} {lo : Nat} (k : Nat) (h : Memory.wfFrom lo m = true) :
    Memory.wfFrom lo (Memory.erase m k) = true := by
  induction m generalizing lo with
  | nil => rfl
  | cons c m ih =>
    obtain ⟨k', v⟩ := c
    simp only [Memory.wfFrom, Bool.and_eq_true, decide_eq_true_eq] at h
    by_cases hk : k' = k
    · simpa [Memory.erase, hk] using Memory.wfFrom_mono (Nat.le_succ_of_le h.1.1.1) (ih h.2)
    · simpa [Memory.erase, hk, Memory.wfFrom, h.1.1.1, h.1.1.2, h.1.2] using ih h.2

theorem Memory.place_wfFrom {m : Memory} {lo k : Nat} {v : Byte} (hlo : lo ≤ k) (hk : k < 16)
    (hv : v ≠ Config.memInit) (hn : ∀ c ∈ m, c.1 ≠ k) (h : Memory.wfFrom lo m = true) :
    Memory.wfFrom lo (Memory.place m k v) = true := by
  induction m generalizing lo with
  | nil => simp [Memory.place, Memory.wfFrom, hlo, hk, hv]
  | cons c m ih =>
    obtain ⟨k', v'⟩ := c
    simp only [Memory.wfFrom, Bool.and_eq_true, decide_eq_true_eq] at h
    have hne : k' ≠ k := hn (k', v') (by simp)
    by_cases hlt : k < k'
    · simp [Memory.place, hlt, Memory.wfFrom, hlo, hk, hv, h.1.1.2, h.1.2, h.2, Nat.succ_le_of_lt hlt]
    · have hle : k' + 1 ≤ k := by omega
      simp [Memory.place, hlt, Memory.wfFrom, h.1.1.1, h.1.1.2, h.1.2, ih hle (fun c hc => hn c (by simp [hc])) h.2]

/-- A write keeps the canonical form. -/
theorem Memory.write_wf {m : Memory} (x : Nibble) (v : Byte) (h : m.wf = true) : (m.write x v).wf = true := by
  unfold Memory.write Memory.wf at *
  split
  · exact Memory.erase_wfFrom _ h
  · next hv =>
    exact Memory.place_wfFrom (Nat.zero_le _) x.isLt hv (Memory.not_listed_erase _ _) (Memory.erase_wfFrom _ h)

/-- Loading bytes keeps the canonical form. -/
theorem Memory.fill_wf {m : Memory} (k : Nat) (bytes : List Byte) (h : m.wf = true) : (m.fill k bytes).wf = true := by
  induction bytes generalizing m k with
  | nil => exact h
  | cons v rest ih =>
    unfold Memory.fill
    split
    · exact ih _ (Memory.write_wf _ _ h)
    · exact h

theorem Memory.reset_wf : State.reset.mem.wf = true := rfl

end Sys2Proof.Machine
end

