-- ==== Sys2Proof/Laws/PerInstr.lean ====
section
/-! SUPPORT. One lemma per constructor of Instr: the two fields of its byte (spec/30_encoding.md R47, R49), the opcode
of its row of spec/opcode_table.json and its operand unchanged. -/

namespace Sys2Proof.Laws.EncodingFields

/-- The encoded byte is well-formed, with the row's opcode in bits 7..4 and the operand in bits 3..0. -/
def Statement (i : Instr) : Prop :=
  i.wf = true ∧ opcodeOf (encode i) = i.opcode ∧ operandOf (encode i) = i.operand

theorem nop (x : Nibble) : Statement (.nop x) := ⟨Instr.wf_all _, by simp, by simp⟩
theorem lda (addr : Nibble) : Statement (.lda addr) := ⟨Instr.wf_all _, by simp, by simp⟩
theorem add (addr : Nibble) : Statement (.add addr) := ⟨Instr.wf_all _, by simp, by simp⟩
theorem sub (addr : Nibble) : Statement (.sub addr) := ⟨Instr.wf_all _, by simp, by simp⟩
theorem sta (addr : Nibble) : Statement (.sta addr) := ⟨Instr.wf_all _, by simp, by simp⟩
theorem ldi (imm : Nibble) : Statement (.ldi imm) := ⟨Instr.wf_all _, by simp, by simp⟩
theorem jmp (addr : Nibble) : Statement (.jmp addr) := ⟨Instr.wf_all _, by simp, by simp⟩
theorem jc (addr : Nibble) : Statement (.jc addr) := ⟨Instr.wf_all _, by simp, by simp⟩
theorem jz (addr : Nibble) : Statement (.jz addr) := ⟨Instr.wf_all _, by simp, by simp⟩
theorem unrecognised9 (x : Nibble) : Statement (.unrecognised9 x) := ⟨Instr.wf_all _, by simp, by simp⟩
theorem unrecognisedA (x : Nibble) : Statement (.unrecognisedA x) := ⟨Instr.wf_all _, by simp, by simp⟩
theorem unrecognisedB (x : Nibble) : Statement (.unrecognisedB x) := ⟨Instr.wf_all _, by simp, by simp⟩
theorem unrecognisedC (x : Nibble) : Statement (.unrecognisedC x) := ⟨Instr.wf_all _, by simp, by simp⟩
theorem unrecognisedD (x : Nibble) : Statement (.unrecognisedD x) := ⟨Instr.wf_all _, by simp, by simp⟩
theorem out (x : Nibble) : Statement (.out x) := ⟨Instr.wf_all _, by simp, by simp⟩
theorem hlt (x : Nibble) : Statement (.hlt x) := ⟨Instr.wf_all _, by simp, by simp⟩

end Sys2Proof.Laws.EncodingFields
end

