-- ==== Sys2Proof/Laws/State.lean ====
section
/-! SUPPORT. The small lemmas of State's updates: for each board and each named update, one lemma for every field it
leaves unchanged, true by rfl. What each board writes is said by Laws/Tick.lean for the tick as a whole. -/

namespace Sys2Proof.Machine

@[simp] theorem clockBoard_bus (s : State) : (clockBoard s).bus = s.bus := rfl
@[simp] theorem clockBoard_a (s : State) : (clockBoard s).a = s.a := rfl
@[simp] theorem clockBoard_b (s : State) : (clockBoard s).b = s.b := rfl
@[simp] theorem clockBoard_out (s : State) : (clockBoard s).out = s.out := rfl
@[simp] theorem clockBoard_ir (s : State) : (clockBoard s).ir = s.ir := rfl
@[simp] theorem clockBoard_mar (s : State) : (clockBoard s).mar = s.mar := rfl
@[simp] theorem clockBoard_pc (s : State) : (clockBoard s).pc = s.pc := rfl
@[simp] theorem clockBoard_mem (s : State) : (clockBoard s).mem = s.mem := rfl
@[simp] theorem clockBoard_aluResult (s : State) : (clockBoard s).aluResult = s.aluResult := rfl
@[simp] theorem clockBoard_pendC (s : State) : (clockBoard s).pendC = s.pendC := rfl
@[simp] theorem clockBoard_pendZ (s : State) : (clockBoard s).pendZ = s.pendZ := rfl
@[simp] theorem clockBoard_c (s : State) : (clockBoard s).c = s.c := rfl
@[simp] theorem clockBoard_z (s : State) : (clockBoard s).z = s.z := rfl
@[simp] theorem clockBoard_microStep (s : State) : (clockBoard s).microStep = s.microStep := rfl
@[simp] theorem clockBoard_halt (s : State) : (clockBoard s).halt = s.halt := rfl
@[simp] theorem clockBoard_rst (s : State) : (clockBoard s).rst = s.rst := rfl
@[simp] theorem clockBoard_rstHold (s : State) : (clockBoard s).rstHold = s.rstHold := rfl
@[simp] theorem clockBoard_sig (s : State) : (clockBoard s).sig = s.sig := rfl
@[simp] theorem clockBoard_prev (s : State) : (clockBoard s).prev = s.prev := rfl

@[simp] theorem pcBoard_clk (s : State) : (pcBoard s).clk = s.clk := rfl
@[simp] theorem pcBoard_a (s : State) : (pcBoard s).a = s.a := rfl
@[simp] theorem pcBoard_b (s : State) : (pcBoard s).b = s.b := rfl
@[simp] theorem pcBoard_out (s : State) : (pcBoard s).out = s.out := rfl
@[simp] theorem pcBoard_ir (s : State) : (pcBoard s).ir = s.ir := rfl
@[simp] theorem pcBoard_mar (s : State) : (pcBoard s).mar = s.mar := rfl
@[simp] theorem pcBoard_mem (s : State) : (pcBoard s).mem = s.mem := rfl
@[simp] theorem pcBoard_aluResult (s : State) : (pcBoard s).aluResult = s.aluResult := rfl
@[simp] theorem pcBoard_pendC (s : State) : (pcBoard s).pendC = s.pendC := rfl
@[simp] theorem pcBoard_pendZ (s : State) : (pcBoard s).pendZ = s.pendZ := rfl
@[simp] theorem pcBoard_c (s : State) : (pcBoard s).c = s.c := rfl
@[simp] theorem pcBoard_z (s : State) : (pcBoard s).z = s.z := rfl
@[simp] theorem pcBoard_microStep (s : State) : (pcBoard s).microStep = s.microStep := rfl
@[simp] theorem pcBoard_halt (s : State) : (pcBoard s).halt = s.halt := rfl
@[simp] theorem pcBoard_rst (s : State) : (pcBoard s).rst = s.rst := rfl
@[simp] theorem pcBoard_rstHold (s : State) : (pcBoard s).rstHold = s.rstHold := rfl
@[simp] theorem pcBoard_sig (s : State) : (pcBoard s).sig = s.sig := rfl

@[simp] theorem marBoard_clk (s : State) : (marBoard s).clk = s.clk := rfl
@[simp] theorem marBoard_bus (s : State) : (marBoard s).bus = s.bus := rfl
@[simp] theorem marBoard_a (s : State) : (marBoard s).a = s.a := rfl
@[simp] theorem marBoard_b (s : State) : (marBoard s).b = s.b := rfl
@[simp] theorem marBoard_out (s : State) : (marBoard s).out = s.out := rfl
@[simp] theorem marBoard_ir (s : State) : (marBoard s).ir = s.ir := rfl
@[simp] theorem marBoard_pc (s : State) : (marBoard s).pc = s.pc := rfl
@[simp] theorem marBoard_mem (s : State) : (marBoard s).mem = s.mem := rfl
@[simp] theorem marBoard_aluResult (s : State) : (marBoard s).aluResult = s.aluResult := rfl
@[simp] theorem marBoard_pendC (s : State) : (marBoard s).pendC = s.pendC := rfl
@[simp] theorem marBoard_pendZ (s : State) : (marBoard s).pendZ = s.pendZ := rfl
@[simp] theorem marBoard_c (s : State) : (marBoard s).c = s.c := rfl
@[simp] theorem marBoard_z (s : State) : (marBoard s).z = s.z := rfl
@[simp] theorem marBoard_microStep (s : State) : (marBoard s).microStep = s.microStep := rfl
@[simp] theorem marBoard_halt (s : State) : (marBoard s).halt = s.halt := rfl
@[simp] theorem marBoard_rst (s : State) : (marBoard s).rst = s.rst := rfl
@[simp] theorem marBoard_rstHold (s : State) : (marBoard s).rstHold = s.rstHold := rfl
@[simp] theorem marBoard_sig (s : State) : (marBoard s).sig = s.sig := rfl

@[simp] theorem memoryBoard_clk (s : State) : (memoryBoard s).clk = s.clk := rfl
@[simp] theorem memoryBoard_a (s : State) : (memoryBoard s).a = s.a := rfl
@[simp] theorem memoryBoard_b (s : State) : (memoryBoard s).b = s.b := rfl
@[simp] theorem memoryBoard_out (s : State) : (memoryBoard s).out = s.out := rfl
@[simp] theorem memoryBoard_ir (s : State) : (memoryBoard s).ir = s.ir := rfl
@[simp] theorem memoryBoard_mar (s : State) : (memoryBoard s).mar = s.mar := rfl
@[simp] theorem memoryBoard_pc (s : State) : (memoryBoard s).pc = s.pc := rfl
@[simp] theorem memoryBoard_aluResult (s : State) : (memoryBoard s).aluResult = s.aluResult := rfl
@[simp] theorem memoryBoard_pendC (s : State) : (memoryBoard s).pendC = s.pendC := rfl
@[simp] theorem memoryBoard_pendZ (s : State) : (memoryBoard s).pendZ = s.pendZ := rfl
@[simp] theorem memoryBoard_c (s : State) : (memoryBoard s).c = s.c := rfl
@[simp] theorem memoryBoard_z (s : State) : (memoryBoard s).z = s.z := rfl
@[simp] theorem memoryBoard_microStep (s : State) : (memoryBoard s).microStep = s.microStep := rfl
@[simp] theorem memoryBoard_halt (s : State) : (memoryBoard s).halt = s.halt := rfl
@[simp] theorem memoryBoard_rst (s : State) : (memoryBoard s).rst = s.rst := rfl
@[simp] theorem memoryBoard_rstHold (s : State) : (memoryBoard s).rstHold = s.rstHold := rfl
@[simp] theorem memoryBoard_sig (s : State) : (memoryBoard s).sig = s.sig := rfl

@[simp] theorem irBoard_clk (s : State) : (irBoard s).clk = s.clk := rfl
@[simp] theorem irBoard_a (s : State) : (irBoard s).a = s.a := rfl
@[simp] theorem irBoard_b (s : State) : (irBoard s).b = s.b := rfl
@[simp] theorem irBoard_out (s : State) : (irBoard s).out = s.out := rfl
@[simp] theorem irBoard_mar (s : State) : (irBoard s).mar = s.mar := rfl
@[simp] theorem irBoard_pc (s : State) : (irBoard s).pc = s.pc := rfl
@[simp] theorem irBoard_mem (s : State) : (irBoard s).mem = s.mem := rfl
@[simp] theorem irBoard_aluResult (s : State) : (irBoard s).aluResult = s.aluResult := rfl
@[simp] theorem irBoard_pendC (s : State) : (irBoard s).pendC = s.pendC := rfl
@[simp] theorem irBoard_pendZ (s : State) : (irBoard s).pendZ = s.pendZ := rfl
@[simp] theorem irBoard_c (s : State) : (irBoard s).c = s.c := rfl
@[simp] theorem irBoard_z (s : State) : (irBoard s).z = s.z := rfl
@[simp] theorem irBoard_microStep (s : State) : (irBoard s).microStep = s.microStep := rfl
@[simp] theorem irBoard_halt (s : State) : (irBoard s).halt = s.halt := rfl
@[simp] theorem irBoard_rst (s : State) : (irBoard s).rst = s.rst := rfl
@[simp] theorem irBoard_rstHold (s : State) : (irBoard s).rstHold = s.rstHold := rfl
@[simp] theorem irBoard_sig (s : State) : (irBoard s).sig = s.sig := rfl

@[simp] theorem aluBoard_clk (s : State) : (aluBoard s).clk = s.clk := rfl
@[simp] theorem aluBoard_a (s : State) : (aluBoard s).a = s.a := rfl
@[simp] theorem aluBoard_b (s : State) : (aluBoard s).b = s.b := rfl
@[simp] theorem aluBoard_out (s : State) : (aluBoard s).out = s.out := rfl
@[simp] theorem aluBoard_ir (s : State) : (aluBoard s).ir = s.ir := rfl
@[simp] theorem aluBoard_mar (s : State) : (aluBoard s).mar = s.mar := rfl
@[simp] theorem aluBoard_pc (s : State) : (aluBoard s).pc = s.pc := rfl
@[simp] theorem aluBoard_mem (s : State) : (aluBoard s).mem = s.mem := rfl
@[simp] theorem aluBoard_microStep (s : State) : (aluBoard s).microStep = s.microStep := rfl
@[simp] theorem aluBoard_halt (s : State) : (aluBoard s).halt = s.halt := rfl
@[simp] theorem aluBoard_rst (s : State) : (aluBoard s).rst = s.rst := rfl
@[simp] theorem aluBoard_rstHold (s : State) : (aluBoard s).rstHold = s.rstHold := rfl
@[simp] theorem aluBoard_sig (s : State) : (aluBoard s).sig = s.sig := rfl

@[simp] theorem aBoard_clk (s : State) : (aBoard s).clk = s.clk := rfl
@[simp] theorem aBoard_b (s : State) : (aBoard s).b = s.b := rfl
@[simp] theorem aBoard_out (s : State) : (aBoard s).out = s.out := rfl
@[simp] theorem aBoard_ir (s : State) : (aBoard s).ir = s.ir := rfl
@[simp] theorem aBoard_mar (s : State) : (aBoard s).mar = s.mar := rfl
@[simp] theorem aBoard_pc (s : State) : (aBoard s).pc = s.pc := rfl
@[simp] theorem aBoard_mem (s : State) : (aBoard s).mem = s.mem := rfl
@[simp] theorem aBoard_aluResult (s : State) : (aBoard s).aluResult = s.aluResult := rfl
@[simp] theorem aBoard_pendC (s : State) : (aBoard s).pendC = s.pendC := rfl
@[simp] theorem aBoard_pendZ (s : State) : (aBoard s).pendZ = s.pendZ := rfl
@[simp] theorem aBoard_c (s : State) : (aBoard s).c = s.c := rfl
@[simp] theorem aBoard_z (s : State) : (aBoard s).z = s.z := rfl
@[simp] theorem aBoard_microStep (s : State) : (aBoard s).microStep = s.microStep := rfl
@[simp] theorem aBoard_halt (s : State) : (aBoard s).halt = s.halt := rfl
@[simp] theorem aBoard_rst (s : State) : (aBoard s).rst = s.rst := rfl
@[simp] theorem aBoard_rstHold (s : State) : (aBoard s).rstHold = s.rstHold := rfl
@[simp] theorem aBoard_sig (s : State) : (aBoard s).sig = s.sig := rfl

@[simp] theorem bBoard_clk (s : State) : (bBoard s).clk = s.clk := rfl
@[simp] theorem bBoard_bus (s : State) : (bBoard s).bus = s.bus := rfl
@[simp] theorem bBoard_a (s : State) : (bBoard s).a = s.a := rfl
@[simp] theorem bBoard_out (s : State) : (bBoard s).out = s.out := rfl
@[simp] theorem bBoard_ir (s : State) : (bBoard s).ir = s.ir := rfl
@[simp] theorem bBoard_mar (s : State) : (bBoard s).mar = s.mar := rfl
@[simp] theorem bBoard_pc (s : State) : (bBoard s).pc = s.pc := rfl
@[simp] theorem bBoard_mem (s : State) : (bBoard s).mem = s.mem := rfl
@[simp] theorem bBoard_aluResult (s : State) : (bBoard s).aluResult = s.aluResult := rfl
@[simp] theorem bBoard_pendC (s : State) : (bBoard s).pendC = s.pendC := rfl
@[simp] theorem bBoard_pendZ (s : State) : (bBoard s).pendZ = s.pendZ := rfl
@[simp] theorem bBoard_c (s : State) : (bBoard s).c = s.c := rfl
@[simp] theorem bBoard_z (s : State) : (bBoard s).z = s.z := rfl
@[simp] theorem bBoard_microStep (s : State) : (bBoard s).microStep = s.microStep := rfl
@[simp] theorem bBoard_halt (s : State) : (bBoard s).halt = s.halt := rfl
@[simp] theorem bBoard_rst (s : State) : (bBoard s).rst = s.rst := rfl
@[simp] theorem bBoard_rstHold (s : State) : (bBoard s).rstHold = s.rstHold := rfl
@[simp] theorem bBoard_sig (s : State) : (bBoard s).sig = s.sig := rfl

@[simp] theorem outBoard_clk (s : State) : (outBoard s).clk = s.clk := rfl
@[simp] theorem outBoard_bus (s : State) : (outBoard s).bus = s.bus := rfl
@[simp] theorem outBoard_a (s : State) : (outBoard s).a = s.a := rfl
@[simp] theorem outBoard_b (s : State) : (outBoard s).b = s.b := rfl
@[simp] theorem outBoard_ir (s : State) : (outBoard s).ir = s.ir := rfl
@[simp] theorem outBoard_mar (s : State) : (outBoard s).mar = s.mar := rfl
@[simp] theorem outBoard_pc (s : State) : (outBoard s).pc = s.pc := rfl
@[simp] theorem outBoard_mem (s : State) : (outBoard s).mem = s.mem := rfl
@[simp] theorem outBoard_aluResult (s : State) : (outBoard s).aluResult = s.aluResult := rfl
@[simp] theorem outBoard_pendC (s : State) : (outBoard s).pendC = s.pendC := rfl
@[simp] theorem outBoard_pendZ (s : State) : (outBoard s).pendZ = s.pendZ := rfl
@[simp] theorem outBoard_c (s : State) : (outBoard s).c = s.c := rfl
@[simp] theorem outBoard_z (s : State) : (outBoard s).z = s.z := rfl
@[simp] theorem outBoard_microStep (s : State) : (outBoard s).microStep = s.microStep := rfl
@[simp] theorem outBoard_halt (s : State) : (outBoard s).halt = s.halt := rfl
@[simp] theorem outBoard_rst (s : State) : (outBoard s).rst = s.rst := rfl
@[simp] theorem outBoard_rstHold (s : State) : (outBoard s).rstHold = s.rstHold := rfl
@[simp] theorem outBoard_sig (s : State) : (outBoard s).sig = s.sig := rfl

@[simp] theorem resetOp_clk (s : State) : (resetOp s).clk = s.clk := rfl
@[simp] theorem resetOp_bus (s : State) : (resetOp s).bus = s.bus := rfl
@[simp] theorem resetOp_a (s : State) : (resetOp s).a = s.a := rfl
@[simp] theorem resetOp_b (s : State) : (resetOp s).b = s.b := rfl
@[simp] theorem resetOp_out (s : State) : (resetOp s).out = s.out := rfl
@[simp] theorem resetOp_ir (s : State) : (resetOp s).ir = s.ir := rfl
@[simp] theorem resetOp_mar (s : State) : (resetOp s).mar = s.mar := rfl
@[simp] theorem resetOp_pc (s : State) : (resetOp s).pc = s.pc := rfl
@[simp] theorem resetOp_mem (s : State) : (resetOp s).mem = s.mem := rfl
@[simp] theorem resetOp_aluResult (s : State) : (resetOp s).aluResult = s.aluResult := rfl
@[simp] theorem resetOp_pendC (s : State) : (resetOp s).pendC = s.pendC := rfl
@[simp] theorem resetOp_pendZ (s : State) : (resetOp s).pendZ = s.pendZ := rfl
@[simp] theorem resetOp_c (s : State) : (resetOp s).c = s.c := rfl
@[simp] theorem resetOp_z (s : State) : (resetOp s).z = s.z := rfl
@[simp] theorem resetOp_microStep (s : State) : (resetOp s).microStep = s.microStep := rfl
@[simp] theorem resetOp_halt (s : State) : (resetOp s).halt = s.halt := rfl
@[simp] theorem resetOp_sig (s : State) : (resetOp s).sig = s.sig := rfl
@[simp] theorem resetOp_prev (s : State) : (resetOp s).prev = s.prev := rfl

@[simp] theorem toBoundary_bus (s : State) : (State.toBoundary s).bus = s.bus := rfl
@[simp] theorem toBoundary_a (s : State) : (State.toBoundary s).a = s.a := rfl
@[simp] theorem toBoundary_b (s : State) : (State.toBoundary s).b = s.b := rfl
@[simp] theorem toBoundary_out (s : State) : (State.toBoundary s).out = s.out := rfl
@[simp] theorem toBoundary_ir (s : State) : (State.toBoundary s).ir = s.ir := rfl
@[simp] theorem toBoundary_mar (s : State) : (State.toBoundary s).mar = s.mar := rfl
@[simp] theorem toBoundary_pc (s : State) : (State.toBoundary s).pc = s.pc := rfl
@[simp] theorem toBoundary_mem (s : State) : (State.toBoundary s).mem = s.mem := rfl
@[simp] theorem toBoundary_aluResult (s : State) : (State.toBoundary s).aluResult = s.aluResult := rfl
@[simp] theorem toBoundary_pendC (s : State) : (State.toBoundary s).pendC = s.pendC := rfl
@[simp] theorem toBoundary_pendZ (s : State) : (State.toBoundary s).pendZ = s.pendZ := rfl
@[simp] theorem toBoundary_c (s : State) : (State.toBoundary s).c = s.c := rfl
@[simp] theorem toBoundary_z (s : State) : (State.toBoundary s).z = s.z := rfl
@[simp] theorem toBoundary_rst (s : State) : (State.toBoundary s).rst = s.rst := rfl
@[simp] theorem toBoundary_sig (s : State) : (State.toBoundary s).sig = s.sig := rfl

@[simp] theorem loadMemory_clk (bytes : List Byte) (s : State) : (loadMemory bytes s).1.clk = s.clk := rfl
@[simp] theorem loadMemory_bus (bytes : List Byte) (s : State) : (loadMemory bytes s).1.bus = s.bus := rfl
@[simp] theorem loadMemory_a (bytes : List Byte) (s : State) : (loadMemory bytes s).1.a = s.a := rfl
@[simp] theorem loadMemory_b (bytes : List Byte) (s : State) : (loadMemory bytes s).1.b = s.b := rfl
@[simp] theorem loadMemory_out (bytes : List Byte) (s : State) : (loadMemory bytes s).1.out = s.out := rfl
@[simp] theorem loadMemory_ir (bytes : List Byte) (s : State) : (loadMemory bytes s).1.ir = s.ir := rfl
@[simp] theorem loadMemory_mar (bytes : List Byte) (s : State) : (loadMemory bytes s).1.mar = s.mar := rfl
@[simp] theorem loadMemory_pc (bytes : List Byte) (s : State) : (loadMemory bytes s).1.pc = s.pc := rfl
@[simp] theorem loadMemory_aluResult (bytes : List Byte) (s : State) : (loadMemory bytes s).1.aluResult = s.aluResult := rfl
@[simp] theorem loadMemory_pendC (bytes : List Byte) (s : State) : (loadMemory bytes s).1.pendC = s.pendC := rfl
@[simp] theorem loadMemory_pendZ (bytes : List Byte) (s : State) : (loadMemory bytes s).1.pendZ = s.pendZ := rfl
@[simp] theorem loadMemory_c (bytes : List Byte) (s : State) : (loadMemory bytes s).1.c = s.c := rfl
@[simp] theorem loadMemory_z (bytes : List Byte) (s : State) : (loadMemory bytes s).1.z = s.z := rfl
@[simp] theorem loadMemory_microStep (bytes : List Byte) (s : State) : (loadMemory bytes s).1.microStep = s.microStep := rfl
@[simp] theorem loadMemory_halt (bytes : List Byte) (s : State) : (loadMemory bytes s).1.halt = s.halt := rfl
@[simp] theorem loadMemory_rst (bytes : List Byte) (s : State) : (loadMemory bytes s).1.rst = s.rst := rfl
@[simp] theorem loadMemory_rstHold (bytes : List Byte) (s : State) : (loadMemory bytes s).1.rstHold = s.rstHold := rfl
@[simp] theorem loadMemory_sig (bytes : List Byte) (s : State) : (loadMemory bytes s).1.sig = s.sig := rfl
@[simp] theorem loadMemory_prev (bytes : List Byte) (s : State) : (loadMemory bytes s).1.prev = s.prev := rfl

@[simp] theorem resetOp_rst (s : State) : (resetOp s).rst = true := rfl
@[simp] theorem resetOp_rstHold (s : State) : (resetOp s).rstHold = 2 := rfl

end Sys2Proof.Machine
end

