-- ==== Sys2Proof/Laws/Tick.lean ====
section
/-! SUPPORT. What one tick does, said once for each kind of tick (spec/40_microsequencer.md R71): the falling-edge
tick, the rising-edge tick, the tick of a halted core, the tick under reset. Later proofs cite these and do not unfold
the boards. -/

namespace Sys2Proof.Machine

@[simp] theorem latch_idle {w : Nat} (new old : BitVec w) : latch false false new old = old := rfl
@[simp] theorem latch_capture {w : Nat} (new old : BitVec w) : latch true false new old = new := rfl
@[simp] theorem latch_clear {w : Nat} (capture : Bool) (new old : BitVec w) : latch capture true new old = 0 := rfl
@[simp] theorem latchFlag_idle (new old : Bool) : latchFlag false false new old = old := rfl
@[simp] theorem latchFlag_commit (new old : Bool) : latchFlag true false new old = new := rfl
@[simp] theorem latchFlag_clear (commit new old : Bool) : latchFlag commit true new old = false := rfl
@[simp] theorem drive_off (v bus : Byte) : drive false v bus = bus := rfl
@[simp] theorem drive_on (v bus : Byte) : drive true v bus = v := rfl
@[simp] theorem rises_iff (p l : Bool) : rises p l = (!p && l) := rfl
@[simp] theorem falls_iff (p l : Bool) : falls p l = (p && !l) := rfl

/-- The falling-edge tick: the next micro-step's word drives, nothing captures (R71). -/
theorem tickWith_falling (row : ExecRow) (s : State) (hh : s.halt = false) (hr : s.rstHold = 0)
    (hp : s.prev = Prev.all true) (hc : s.clk = true) :
    tickWith row s =
      { s with
        clk := false
        microStep := nextMicroStep s.microStep
        rst := false
        halt := decide (nextMicroStep s.microStep = 2) && row.halts
        sig := controlWord row (nextMicroStep s.microStep) s.c s.z
        prev := Prev.all false
        aluResult := aluValue (controlWord row (nextMicroStep s.microStep) s.c s.z).su s.a s.b
        pendC := aluCarry (controlWord row (nextMicroStep s.microStep) s.c s.z).su s.a s.b
        pendZ := aluZero (controlWord row (nextMicroStep s.microStep) s.c s.z).su s.a s.b
        bus :=
          let g := controlWord row (nextMicroStep s.microStep) s.c s.z
          drive g.ao s.a <| drive g.eo (aluValue g.su s.a s.b) <| drive g.io (zext8 (operandOf s.ir)) <|
            drive g.ro (s.mem.read s.mar) <| drive g.co (zext8 s.pc) s.bus } := by
  obtain ⟨clk, bus, a, b, out, ir, mar, pc, mem, alu, pc', pz', c, z, k, halt, rst, rh, sig, prev⟩ := s
  simp only at hh hr hp hc
  subst hh hr hp hc
  simp [tickWith, dataBoards, outBoard, bBoard, aBoard, aluBoard, irBoard, memoryBoard, marBoard, pcBoard, controlUnit,
    clockBoard, Prev.all, pcEdge, latch, latchFlag]

/-- The rising-edge tick: every capture, write and commit of the micro-step, board by board in the order of R58. -/
theorem tickWith_rising (row : ExecRow) (s : State) (hh : s.halt = false) (hr : s.rstHold = 0)
    (hp : s.prev = Prev.all false) (hc : s.clk = false) :
    tickWith row s =
      let g := controlWord row s.microStep s.c s.z
      let pc := pcEdge true g.j g.ce s.bus s.pc
      let bus1 := drive g.co (zext8 pc) s.bus
      let mar := if g.mi then lowNibble bus1 else s.mar
      let mem := if g.ri then s.mem.write mar bus1 else s.mem
      let bus2 := drive g.ro (mem.read mar) bus1
      let ir := if g.ii then bus2 else s.ir
      let bus3 := drive g.io (zext8 (operandOf ir)) bus2
      let bus4 := drive g.eo (aluValue g.su s.a s.b) bus3
      let a := if g.ai then bus4 else s.a
      let bus5 := drive g.ao a bus4
      { clk := true
        bus := bus5
        a := a
        b := if g.bi then bus5 else s.b
        out := if g.oi then bus5 else s.out
        ir := ir
        mar := mar
        pc := pc
        mem := mem
        aluResult := aluValue g.su s.a s.b
        pendC := aluCarry g.su s.a s.b
        pendZ := aluZero g.su s.a s.b
        c := if g.fi then aluCarry g.su s.a s.b else s.c
        z := if g.fi then aluZero g.su s.a s.b else s.z
        microStep := s.microStep
        halt := decide (s.microStep = 2) && row.halts
        rst := false
        rstHold := 0
        sig := g
        prev := Prev.all true } := by
  obtain ⟨clk, bus, a, b, out, ir, mar, pc, mem, alu, pc', pz', c, z, k, halt, rst, rh, sig, prev⟩ := s
  simp only at hh hr hp hc
  subst hh hr hp hc
  simp [tickWith, dataBoards, outBoard, bBoard, aBoard, aluBoard, irBoard, memoryBoard, marBoard, pcBoard, controlUnit,
    clockBoard, Prev.all, latch, latchFlag]

/-- A tick with the hold-count not 0: every register and committed flag cleared, `step` and `halt` zeroed, no pulse,
nothing on the bus, memory untouched (R63, R111). -/
theorem tickWith_reset (row : ExecRow) (s : State) (hr : s.rstHold ≠ 0) :
    tickWith row s =
      { clk := if s.halt then false else !s.clk
        bus := s.bus
        a := 0
        b := 0
        out := 0
        ir := 0
        mar := 0
        pc := 0
        mem := s.mem
        aluResult := aluValue false s.a s.b
        pendC := aluCarry false s.a s.b
        pendZ := aluZero false s.a s.b
        c := false
        z := false
        microStep := 0
        halt := false
        rst := true
        rstHold := countDown s.rstHold
        sig := Sig.none
        prev := Prev.all (if s.halt then false else !s.clk) } := by
  obtain ⟨clk, bus, a, b, out, ir, mar, pc, mem, alu, pc', pz', c, z, k, halt, rst, rh, sig, prev⟩ := s
  simp only at hr
  simp [tickWith, dataBoards, outBoard, bBoard, aBoard, aluBoard, irBoard, memoryBoard, marBoard, pcBoard, controlUnit,
    clockBoard, Prev.all, hr, Sig.none]

/-- A tick of a halted core with no reset pending: the clock is low, so no board sees a rising edge and nothing is
captured; the word of the micro-step is derived again and its driver drives (R59, R109). -/
theorem tickWith_halted (row : ExecRow) (s : State) (hh : s.halt = true) (hr : s.rstHold = 0) :
    tickWith row s =
      let k := if s.prev.cu then nextMicroStep s.microStep else s.microStep
      let g := controlWord row k s.c s.z
      { s with
        clk := false
        microStep := k
        rst := false
        sig := g
        prev := Prev.all false
        aluResult := aluValue g.su s.a s.b
        pendC := aluCarry g.su s.a s.b
        pendZ := aluZero g.su s.a s.b
        bus :=
          drive g.ao s.a <| drive g.eo (aluValue g.su s.a s.b) <| drive g.io (zext8 (operandOf s.ir)) <|
            drive g.ro (s.mem.read s.mar) <| drive g.co (zext8 s.pc) s.bus } := by
  obtain ⟨clk, bus, a, b, out, ir, mar, pc, mem, alu, pc', pz', c, z, k, halt, rst, rh, sig, prev⟩ := s
  simp only at hh hr
  subst hh hr
  simp [tickWith, dataBoards, outBoard, bBoard, aBoard, aluBoard, irBoard, memoryBoard, marBoard, pcBoard, controlUnit,
    clockBoard, Prev.all, pcEdge, latch, latchFlag]

/-! ### Single fields of any tick, whatever the state -/

theorem tickWith_clk (row : ExecRow) (s : State) : (tickWith row s).clk = if s.halt then false else !s.clk := by
  by_cases h : s.rstHold = 0 <;> simp [tickWith, dataBoards, controlUnit, h, clockBoard]

theorem tickWith_rst (row : ExecRow) (s : State) : (tickWith row s).rst = decide (s.rstHold ≠ 0) := by
  by_cases h : s.rstHold = 0 <;> simp [tickWith, dataBoards, controlUnit, h, clockBoard]

theorem tickWith_rstHold (row : ExecRow) (s : State) : (tickWith row s).rstHold = countDown s.rstHold := by
  by_cases h : s.rstHold = 0 <;> simp [tickWith, dataBoards, controlUnit, h, clockBoard, countDown]

theorem tickWith_microStep (row : ExecRow) (s : State) :
    (tickWith row s).microStep =
      if s.rstHold = 0 then
        (if falls s.prev.cu (tickWith row s).clk then nextMicroStep s.microStep else s.microStep)
      else 0 := by
  by_cases h : s.rstHold = 0 <;> simp [tickWith, dataBoards, controlUnit, h, clockBoard]

theorem tickWith_sig (row : ExecRow) (s : State) :
    (tickWith row s).sig =
      if s.rstHold = 0 then controlWord row (tickWith row s).microStep s.c s.z else Sig.none := by
  by_cases h : s.rstHold = 0 <;> simp [tickWith, dataBoards, controlUnit, h, clockBoard]

theorem tickWith_c (row : ExecRow) (s : State) :
    (tickWith row s).c =
      latchFlag (rises s.prev.alu (tickWith row s).clk && (tickWith row s).sig.fi) (tickWith row s).rst
        (aluCarry (tickWith row s).sig.su s.a s.b) s.c := by
  by_cases h : s.rstHold = 0 <;>
    simp [tickWith, dataBoards, controlUnit, h, clockBoard, aluBoard, irBoard, memoryBoard, marBoard, pcBoard]

theorem tickWith_z (row : ExecRow) (s : State) :
    (tickWith row s).z =
      latchFlag (rises s.prev.alu (tickWith row s).clk && (tickWith row s).sig.fi) (tickWith row s).rst
        (aluZero (tickWith row s).sig.su s.a s.b) s.z := by
  by_cases h : s.rstHold = 0 <;>
    simp [tickWith, dataBoards, controlUnit, h, clockBoard, aluBoard, irBoard, memoryBoard, marBoard, pcBoard]

/-! ### Runs of ticks -/

theorem ticksWith_add (row : ExecRow) (m n : Nat) (s : State) :
    ticksWith row (m + n) s = ticksWith row n (ticksWith row m s) := by
  induction m generalizing s with
  | zero => simp [ticksWith]
  | succ m ih => rw [Nat.succ_add]; exact ih _

theorem ticks_add (m n : Nat) (s : State) : ticks (m + n) s = ticks n (ticks m s) := by
  induction m generalizing s with
  | zero => simp [ticks]
  | succ m ih => rw [Nat.succ_add]; exact ih _

end Sys2Proof.Machine
end

