-- ==== Sys2Proof/Laws/Shapes.lean ====
section
/-! SUPPORT. The states claims speak of, as records with the fixed fields written out, so that the tick lemmas of
Laws/Tick.lean rewrite them. -/

namespace Sys2Proof.Machine

theorem State.FetchDone.exists_eq {s : State} (h : s.FetchDone) :
    ∃ bus a b out ir mar pc mem alu pendC pendZ c z rst sig,
      s = ⟨true, bus, a, b, out, ir, mar, pc, mem, alu, pendC, pendZ, c, z, 1, false, rst, 0, sig, Prev.all true⟩ := by
  obtain ⟨clk, bus, a, b, out, ir, mar, pc, mem, alu, pendC, pendZ, c, z, k, halt, rst, rh, sig, prev⟩ := s
  obtain ⟨h1, h2, h3, h4, h5⟩ := h
  simp only at h1 h2 h3 h4 h5
  subst h1 h2 h3 h4 h5
  exact ⟨_, _, _, _, _, _, _, _, _, _, _, _, _, _, _, rfl⟩

theorem State.Boundary.exists_eq {s : State} (h : s.Boundary) :
    ∃ bus a b out ir mar pc mem alu pendC pendZ c z rst sig,
      s = ⟨true, bus, a, b, out, ir, mar, pc, mem, alu, pendC, pendZ, c, z, 4, false, rst, 0, sig, Prev.all true⟩ := by
  obtain ⟨clk, bus, a, b, out, ir, mar, pc, mem, alu, pendC, pendZ, c, z, k, halt, rst, rh, sig, prev⟩ := s
  obtain ⟨h1, h2, h3, h4, h5⟩ := h
  simp only at h1 h2 h3 h4 h5
  subst h1 h2 h3 h4 h5
  exact ⟨_, _, _, _, _, _, _, _, _, _, _, _, _, _, _, rfl⟩

theorem State.Running.exists_eq {s : State} (h : s.Running) :
    ∃ clk bus a b out ir mar pc mem alu pendC pendZ c z k rst sig,
      s = ⟨clk, bus, a, b, out, ir, mar, pc, mem, alu, pendC, pendZ, c, z, k, false, rst, 0, sig, Prev.all clk⟩ := by
  obtain ⟨clk, bus, a, b, out, ir, mar, pc, mem, alu, pendC, pendZ, c, z, k, halt, rst, rh, sig, prev⟩ := s
  obtain ⟨h1, h2, h3⟩ := h
  simp only at h1 h2 h3
  subst h1 h2 h3
  exact ⟨_, _, _, _, _, _, _, _, _, _, _, _, _, _, _, _, _, rfl⟩

theorem State.Boundary.fetchTicks {s : State} (h : s.Boundary) : s.fetchTicks = some 4 := by
  obtain ⟨bus, a, b, out, ir, mar, pc, mem, alu, pendC, pendZ, c, z, rst, sig, rfl⟩ := h.exists_eq
  simp [State.fetchTicks, State.atBoundary]

theorem State.Boundary.fetchAddr {s : State} (h : s.Boundary) : s.fetchAddr = s.pc := by
  obtain ⟨bus, a, b, out, ir, mar, pc, mem, alu, pendC, pendZ, c, z, rst, sig, rfl⟩ := h.exists_eq
  simp [State.fetchAddr, State.atBoundary]

end Sys2Proof.Machine
end

