-- ==== Sys2Proof/Tests/Slice0.lean ====
section
/-! SUPPORT. Tests: the vectors of spec/95_test_vectors.md (the id of each in its comment), the smoke tests of
WellFormed, and for each obligation with hypotheses a state that meets them. -/

namespace Sys2Proof.Tests

open Sys2Proof Sys2Proof.Machine Sys2Proof.Spec

/-! ### Helpers -/

/-- A running core at the instruction boundary (conventions of 95): PC, A, C, Z and the given cells, every other 0. -/
def boot (pc : Nibble) (a : Byte) (c z : Bool) (cells : List (Nibble × Byte)) : State :=
  { State.reset with
    clk := true, microStep := 4, rst := false, prev := Prev.all true, pc := pc, a := a, c := c, z := z
    mem := cells.foldl (fun m p => m.write p.1 p.2) [] }

/-- The state after one step. -/
def after (s : State) : Option State :=
  match step s with
  | .next t => some t
  | _ => none

/-- A running core at the end of a fetch. -/
def fetched : State :=
  { State.reset with
    clk := true, microStep := 1, rst := false, prev := Prev.all true, pc := 1, a := 0x80, c := true, ir := 0x2F
    mem := [(0, 0x2F), (15, 0x80)] }

/-- The frozen core at the end of the trace of 95 section 2.1. -/
def frozen : State :=
  { State.reset with
    bus := 0xF0, b := 0xFF, ir := 0xF0, mar := 2, pc := 3, aluResult := 0xFF, pendZ := false, c := true, z := true
    microStep := 2, halt := true, rst := false, mem := [(0, 0x51), (1, 0x2F), (2, 0xF0), (15, 0xFF)] }

/-! ### WellFormed -/

theorem test_wf_refuses_lda_16 : (SourceLine.lda 16).wf = false := by decide
theorem test_wf_refuses_add_16 : (SourceLine.add 16).wf = false := by decide
theorem test_wf_refuses_sub_16 : (SourceLine.sub 16).wf = false := by decide
theorem test_wf_refuses_sta_16 : (SourceLine.sta 16).wf = false := by decide
theorem test_wf_refuses_ldi_255 : (SourceLine.ldi 255).wf = false := by decide
theorem test_wf_refuses_jmp_16 : (SourceLine.jmp 0x10).wf = false := by decide
theorem test_wf_refuses_jc_16 : (SourceLine.jc 16).wf = false := by decide
theorem test_wf_refuses_jz_16 : (SourceLine.jz 16).wf = false := by decide
theorem test_wf_refuses_data_256 : (SourceLine.data 256).wf = false := by decide
/-- L1-7: no byte is produced. -/
theorem test_assemble_refuses : assemble (.ldi 16) = none ∧ assemble (.jmp 16) = none := by decide
theorem test_assemble_limits : assemble (.ldi 15) = some 0x5F ∧ assemble (.data 255) = some 0xFF := by decide
theorem test_operand_range : operandInRange 15 = true ∧ operandInRange 16 = false := by decide

/-! ### Decode: words written bit by bit from the patterns of R49 (95 section 2.3) -/

theorem test_decode_nop : decode 0b00001111 = .nop 15 := by decide
theorem test_decode_lda : decode 0b00011110 = .lda 14 := by decide
theorem test_decode_add : decode 0b00100000 = .add 0 := by decide
theorem test_decode_sub : decode 0b00111011 = .sub 11 := by decide
theorem test_decode_sta : decode 0b01001101 = .sta 13 := by decide
theorem test_decode_ldi : decode 0b01011111 = .ldi 15 := by decide
theorem test_decode_jmp : decode 0b01100000 = .jmp 0 := by decide
theorem test_decode_jc : decode 0b01111000 = .jc 8 := by decide
theorem test_decode_jz : decode 0b10000110 = .jz 6 := by decide
theorem test_decode_9 : decode 0b10011100 = .unrecognised9 12 := by decide
theorem test_decode_A : decode 0b10100101 = .unrecognisedA 5 := by decide
theorem test_decode_B : decode 0b10111111 = .unrecognisedB 15 := by decide
theorem test_decode_C : decode 0b11000000 = .unrecognisedC 0 := by decide
theorem test_decode_D : decode 0b11011101 = .unrecognisedD 13 := by decide
theorem test_decode_out : decode 0b11100111 = .out 7 := by decide
theorem test_decode_hlt : decode 0b11110000 = .hlt 0 := by decide
theorem test_decode_no_byte : decodeBytes [] = .error .noByte := rfl
theorem test_table_word : decodeTableWord 8 0x1E = some (.lda 14) := by decide

/-! ### One step of each instruction (95 sections 2.4 to 2.6) -/

/-- LS1. -/
theorem test_lda : (after (boot 0 0 false false [(0, 0x1E), (14, 0x2A)])).map (fun t => (t.a, t.mar, t.pc)) =
    some (0x2A, 14, 1) := by decide
/-- LS2: LDA of its own cell. -/
theorem test_lda_own_cell : (after (boot 3 0 false false [(3, 0x13)])).map (fun t => (t.a, t.pc)) = some (0x13, 4) := by
  decide
/-- LS3. -/
theorem test_sta : (after (boot 0 7 false false [(0, 0x4D), (13, 0x55)])).map (fun t => (t.mem.read 13, t.bus)) =
    some (7, 7) := by decide
/-- LS4: the next instruction's cell. -/
theorem test_sta_next_cell : ((after (boot 0 0xF0 false false [(0, 0x41)])).bind after).map (fun t => (t.halt, t.pc)) =
    some (true, 2) := by decide
/-- LS5: LDI 0 leaves the flags. -/
theorem test_ldi_zero : (after (boot 0 0x33 true false [(0, 0x50)])).map (fun t => (t.a, t.c, t.z, t.mar)) =
    some (0, true, false, 0) := by decide
/-- LS6. -/
theorem test_ldi_max : (after (boot 0 0 false false [(0, 0x5F)])).map (fun t => (t.a, t.bus)) = some (0x0F, 0x0F) := by
  decide
/-- AR2. -/
theorem test_add_carry_zero : (after (boot 0 0xFF false false [(0, 0x2F), (15, 1)])).map (fun t => (t.a, t.b, t.c, t.z)) =
    some (0, 1, true, true) := by decide
/-- AR6, AR15: the flags before do not matter. -/
theorem test_add_no_carry : (after (boot 0 0x7F true true [(0, 0x2F), (15, 1)])).map (fun t => (t.a, t.c, t.z)) =
    some (0x80, false, false) := by decide
/-- AR8. -/
theorem test_sub_borrow : (after (boot 0 3 false false [(0, 0x3F), (15, 5)])).map (fun t => (t.a, t.c, t.z)) =
    some (0xFE, true, false) := by decide
/-- AR9. -/
theorem test_sub_zero : (after (boot 0 7 false false [(0, 0x3F), (15, 7)])).map (fun t => (t.a, t.c, t.z)) =
    some (0, false, true) := by decide
/-- CT1. -/
theorem test_jmp : (after (boot 7 0 false false [(7, 0x69)])).map (fun t => (t.pc, t.mar)) = some (9, 7) := by decide
/-- CT3. -/
theorem test_jmp_self : (after (boot 15 0 false false [(15, 0x6F)])).map (fun t => t.pc) = some 15 := by decide
/-- CT4. -/
theorem test_jc_taken : (after (boot 2 0 true false [(2, 0x78)])).map (fun t => (t.pc, t.mar)) = some (8, 2) := by decide
/-- CT5. -/
theorem test_jc_not_taken : (after (boot 2 0 false true [(2, 0x78)])).map (fun t => (t.pc, t.bus)) = some (3, 8) := by
  decide
/-- CT6. -/
theorem test_jz_taken : (after (boot 4 0 false true [(4, 0x86)])).map (fun t => t.pc) = some 6 := by decide
/-- CT7. -/
theorem test_jz_not_taken : (after (boot 4 0 true false [(4, 0x86)])).map (fun t => (t.pc, t.bus)) = some (5, 6) := by
  decide
/-- SY2. -/
theorem test_nop : (after (boot 3 5 false false [(3, 0x0F)])).map (fun t => (t.pc, t.mar, t.a, t.bus)) =
    some (4, 3, 5, 0x0F) := by decide
/-- SY3: PC wraps. -/
theorem test_nop_wrap : (after (boot 15 0 false false [])).map (fun t => (t.pc, t.mar)) = some (0, 15) := by decide
/-- SY4. -/
theorem test_unrecognised9 : (after (boot 13 9 true true [(13, 0x9C)])).map (fun t => (t.pc, t.a, t.c, t.z, t.halt)) =
    some (14, 9, true, true, false) := by decide
/-- SY4. -/
theorem test_unrecognisedA : (after (boot 13 9 true true [(13, 0xAC)])).map (fun t => (t.pc, t.mar, t.bus)) =
    some (14, 13, 0xAC) := by decide
/-- SY4. -/
theorem test_unrecognisedB : (after (boot 13 9 true true [(13, 0xBC)])).map (fun t => (t.pc, t.mar, t.bus)) =
    some (14, 13, 0xBC) := by decide
/-- SY4. -/
theorem test_unrecognisedC : (after (boot 13 9 true true [(13, 0xCC)])).map (fun t => (t.pc, t.mar, t.bus)) =
    some (14, 13, 0xCC) := by decide
/-- SY4. -/
theorem test_unrecognisedD : (after (boot 13 9 true true [(13, 0xDC)])).map (fun t => (t.pc, t.mar, t.bus)) =
    some (14, 13, 0xDC) := by decide
/-- SY6. -/
theorem test_out : (after (boot 0 0x99 false false [(0, 0xE7)])).map (fun t => (t.out, t.bus)) = some (0x99, 0x99) := by
  decide
/-- SY8. -/
theorem test_hlt : (after (boot 15 0 false false [(15, 0xFF)])).map (fun t => (t.halt, t.pc, t.mar, t.microStep, t.clk)) =
    some (true, 0, 15, 2, false) := by decide
/-- SY7: the frozen state meets its description. -/
theorem test_hlt_freezes : ((after (boot 10 0 false false [(10, 0xF0)])).map fun t => decide t.Frozen) = some true := by
  decide

/-! ### Reset, load, first instruction -/

/-- R28 with the named POWER_ON. -/
theorem test_reset : hostReset { State.reset with a := 3, pc := 7, rst := false, microStep := 2 } = State.reset := by
  decide
/-- RS2: reset from the halted core leaves the clock high. -/
theorem test_reset_halted : (hostReset frozen).clk = true ∧ (hostReset frozen).mem = frozen.mem := by decide
/-- L1-4: 20 bytes. -/
theorem test_load_truncates :
    (loadMemory ((List.range 20).map (BitVec.ofNat 8)) { State.reset with mem := [(3, 0x77)] }).2 = true ∧
    (loadMemory ((List.range 20).map (BitVec.ofNat 8)) { State.reset with mem := [(3, 0x77)] }).1.mem.read 15 = 15 := by
  decide
/-- L1-4: 5 bytes. -/
theorem test_load_short :
    (loadMemory [0xA0, 0xA1, 0xA2, 0xA3, 0xA4] { State.reset with mem := [(4, 0x77), (5, 0x77)] }).1.mem.read 5 = 0x77 ∧
    (loadMemory [0xA0, 0xA1, 0xA2, 0xA3, 0xA4] { State.reset with mem := [(4, 0x77), (5, 0x77)] }).2 = false := by
  decide
/-- The first instruction after reset (95 section 2.1, tick 9). -/
theorem test_first_instruction : (after (State.reset.withFetchWord 8 0x51)).map (fun t => (t.a, t.pc)) = some (1, 1) := by
  decide

/-! ### Boards (95 section 2.2) -/

/-- R108: the host reads the pulse signals too; here those of micro-step 1 (R64). -/
theorem test_observe_sig : (observe (tick (tick State.reset))).sig = { ro := true, ii := true, ce := true } := by decide
/-- B13: load wins over count, "unverified against original intent" (93 I2, log 9). -/
theorem test_pc_load_wins : (pcBoard { State.reset with
    clk := true, rst := false, pc := 3, bus := 0x05, sig := { j := true, ce := true } }).pc = 5 := by decide
/-- B15: clear wins over count. -/
theorem test_pc_clear_wins : (pcBoard { State.reset with clk := true, pc := 9, sig := { ce := true } }).pc = 0 := by decide
/-- B21: no capture without a rising edge. -/
theorem test_a_no_edge : (aBoard { State.reset with rst := false, a := 0x10, bus := 0x42, sig := { ai := true } }).a = 0x10 := by
  decide
/-- B23: clear wins over capture. -/
theorem test_a_clear_wins : (aBoard { State.reset with clk := true, a := 1, bus := 0x42, sig := { ai := true } }).a = 0 := by
  decide
/-- B7. -/
theorem test_cu_reset : (controlUnit hltRow { State.reset with rstHold := 2, microStep := 3, halt := true }).rstHold = 1 ∧
    (controlUnit hltRow { State.reset with rstHold := 2, microStep := 3, halt := true }).halt = false := by decide
/-- B31. -/
theorem test_alu_borrow : (aluBoard { State.reset with a := 3, b := 5, sig := { su := true } }).aluResult = 0xFE ∧
    (aluBoard { State.reset with a := 3, b := 5, sig := { su := true } }).pendC = true := by decide

/-! ### States that meet the hypotheses of the obligations -/

/-- For the sixteen instruction statements, StepAfterFetchRunsInstructionInIr and OnlyTheNamedInstructionsWriteEachPlace. -/
theorem witness_fetchDone : fetched.FetchDone := by decide
/-- For OnlyTheNamedInstructionsWriteEachPlace: an `exec` that answers a next state and writes what it names. -/
theorem witness_exec_next : ∃ t, exec (.add 15) fetched = .next t ∧ t.z ≠ fetched.z := ⟨_, rfl, by decide⟩
/-- For the boundary statements; the cell at PC holds no HLT. -/
theorem witness_boundary : (boot 15 1 false false [(15, 0x2F)]).Boundary ∧
    opcodeOf ((boot 15 1 false false [(15, 0x2F)]).mem.read 15) ≠ 0xF := by decide
/-- For RunToHaltTakesFiveTicks. -/
theorem witness_boundary_hlt : (boot 10 0 false false [(10, 0xF0)]).Boundary ∧
    opcodeOf ((boot 10 0 false false [(10, 0xF0)]).mem.read (boot 10 0 false false [(10, 0xF0)]).pc) = 0xF := by decide
/-- For StepDependsOnProgramStateAlone: two different states that agree where it asks. -/
theorem witness_two_boundaries : (boot 0 1 false false [(0, 0x2F)]).Boundary ∧
    ({ boot 0 1 false false [(0, 0x2F)] with bus := 0x33, ir := 0xF0, mar := 9, rst := true } : State).Boundary := by
  decide
/-- For the statements on the frozen core, HaltedCoreStaysHalted among them. -/
theorem witness_frozen : frozen.Frozen ∧ frozen.halt = true ∧ frozen.rstHold = 0 := by decide
/-- For StepFetchesThenRunsDecodedInstruction: each of the four counts of ticks. -/
theorem witness_fetchTicks :
    (boot 0 0 false false []).fetchTicks = some 4 ∧ State.reset.fetchTicks = some 3 ∧
    (hostReset frozen).fetchTicks = some 2 ∧ (tick (tick State.reset)).fetchTicks = some 1 := by decide
/-- For ControlUnitFollowsDecodeTable and ControlUnitResetBranch: a hold-count of 0, of 2 and of 1. -/
theorem witness_rstHold : State.reset.rstHold = 0 ∧ (resetOp State.reset).rstHold = 2 ∧ 0 < (resetOp State.reset).rstHold ∧
    0 < (tick (resetOp State.reset)).rstHold := by decide
/-- For HostResetClearsRegistersKeepsMemory: each of its two ticks, from a core with registers that are not 0. -/
theorem witness_reset_ticks : frozen.ir ≠ 0 ∧ ∃ t u : State, t = tick (resetOp frozen) ∧ u = hostReset frozen ∧ t ≠ u :=
  ⟨by decide, _, _, rfl, rfl, by decide⟩
/-- For JmpToItselfNeverHalts, at the greatest address. -/
theorem witness_jmp_self : (boot 15 0 false false [(15, 0x6F)]).Boundary ∧
    decode ((boot 15 0 false false [(15, 0x6F)]).mem.read 15) = .jmp 15 := by decide
/-- For ClockTogglesUnlessHalted. -/
theorem witness_clock : State.reset.halt = false ∧ frozen.halt = true := by decide
/-- For ProgramCounterBoardRule: a state for each clause. -/
theorem witness_pc_clauses :
    State.reset.rst = true ∧
    (let s := { State.reset with rst := false, clk := true }; s.rst = false ∧ s.prev.pc = false ∧ s.clk = true) ∧
    (let s := { State.reset with rst := false }; s.rst = false ∧ ¬(s.prev.pc = false ∧ s.clk = true)) := by decide
/-- For AssemblerRefusesOperandsAboveFifteen: both sides of the boundary. -/
theorem witness_operand_range : 15 ≤ 15 ∧ 15 < 16 := by decide
/-- For DecodeReadsBackEveryEncodedInstruction. -/
theorem witness_wf : (Instr.sub 15).wf = true := by decide
/-- For FallingEdgeTickCapturesNothing, with a tick that does not halt and one that does. -/
theorem witness_falling : fetched.Running ∧ fetched.clk = true ∧ (tick fetched).halt = false ∧
    ({ fetched with ir := 0xF0 } : State).Running ∧ (tick { fetched with ir := 0xF0 }).halt = true := by decide
/-- For RisingTickIsSimultaneousTransfer: after a falling-edge tick. -/
theorem witness_rising : (tick fetched).Running ∧ (tick fetched).clk = false ∧
    ∃ r : State, r.Running ∧ r.clk = true ∧ tick r = tick fetched :=
  ⟨by decide, by decide, fetched, by decide, by decide, rfl⟩
/-- For RisingTickIsSimultaneousTransfer: micro-step 0 right after a reset. -/
theorem witness_rising_after_reset : State.reset.Running ∧ State.reset.clk = false ∧ State.reset.microStep = 0 := by decide
/-- For FlagsChangeOnlyOnCommitOrClear: a commit and a clear. -/
theorem witness_flags_change :
    (tick (ticks 5 fetched)).z ≠ (ticks 5 fetched).z ∧ (tick (resetOp fetched)).c ≠ (resetOp fetched).c := by decide
/-- For MemoryChangesOnlyInStoreTick: the store tick of STA 0. -/
theorem witness_memory_change :
    (tick (ticks 3 { fetched with ir := 0x40 })).mem.read 0 ≠ (ticks 3 { fetched with ir := 0x40 }).mem.read 0 := by decide
/-- For ModelResetIsHostResetOfNamedPowerOn: a power-on state with registers that are not 0. -/
theorem witness_power_on :
    let s := { State.reset with a := 0x5A, pc := 9, microStep := 3, rst := false }
    s.clk = false ∧ s.halt = false ∧ s.bus = 0 ∧ s.mem.wf = true ∧ ∀ x : Nibble, s.mem.read x = 0 := by decide
/-- For FirstInstructionAfterResetDependsOnMemoryAlone: two different states with one memory. -/
theorem witness_same_memory : frozen ≠ { frozen with a := 1, clk := true, halt := false, bus := 0 } ∧
    frozen.mem = { frozen with a := 1, clk := true, halt := false, bus := 0 }.mem := by decide
/-- For FirstBoundaryAfterResetInNineOrEightTicks: each clock phase. -/
theorem witness_reset_phases : opcodeOf (frozen.mem.read 0) ≠ 0xF ∧ (hostReset frozen).clk = true ∧
    opcodeOf ((boot 0 0 false false []).mem.read 0) ≠ 0xF ∧
    (hostReset { boot 0 0 false false [] with clk := false }).clk = false := by decide
/-- For LoadBetweenTicksReachesTheFetch. -/
theorem witness_load_between : (tick (tick State.reset)).Running ∧ (tick (tick State.reset)).clk = false ∧
    (tick (tick State.reset)).microStep = 1 := by decide
/-- For PlacedWordIsTheNextInstructionRun: the least and the greatest word. -/
theorem witness_word : 0 < 256 ∧ 255 < 256 := by decide
/-- For StoreToNextCellIsTheNextInstruction, at the wrap of the address. -/
theorem witness_store_next : (boot 15 0x1E false false [(15, 0x40)]).Boundary ∧
    decode ((boot 15 0x1E false false [(15, 0x40)]).mem.read 15) = .sta 0 ∧ (0 : Nibble) = 15 + 1 := by decide
/-- For LoadAfterStoreReadsMostRecentWrite: the stored cell and another. -/
theorem witness_store_load : ∃ t, step (boot 0 9 false false [(0, 0x4E), (1, 0x1E)]) = .next t ∧
    decode (t.mem.read t.pc) = .lda 14 := ⟨_, rfl, by decide⟩
theorem witness_store_load_other : ∃ t, step (boot 0 9 false false [(0, 0x4E), (1, 0x1D)]) = .next t ∧
    decode (t.mem.read t.pc) = .lda 13 := ⟨_, rfl, by decide⟩
/-- For ResetEstablishesInvariant. -/
theorem witness_wf_memory : frozen.mem.wf = true := by decide
/-- For TickKeepsInvariant: the frozen core. -/
theorem witness_inv : frozen.Inv :=
  ⟨by decide, by decide, by decide, by decide, by decide, by decide, by decide, by decide⟩
/-- For StepKeepsInvariant: a boundary from which a step is taken. -/
theorem witness_inv_step : (boot 0 1 false false [(0, 0x2F)]).Inv ∧
    ∃ t, step (boot 0 1 false false [(0, 0x2F)]) = .next t :=
  ⟨⟨by decide, by decide, by decide, by decide, by decide, by decide, by decide, by decide⟩, _, rfl⟩

end Sys2Proof.Tests
end

section
/-! The halt latch of one tick (spec/10_state.md R20), and the accessors (R26). -/

namespace Sys2Proof

/-- The decoder keeps the opcode field: the last arm of the map answers for 0xF alone (R49). -/
@[simp] theorem opcode_decode (b : Byte) : (decode b).opcode = opcodeOf b := by
  unfold decode
  split
  case h_16 =>
    change 0xF = opcodeOf b
    generalize opcodeOf b = op at *
    decide +revert
  all_goals exact Eq.symm ‹_›

end Sys2Proof

namespace Sys2Proof.Machine

/-! ### The halt latch -/

/-- Of the execute table's rows, HLT's alone sets the halt latch (R64, R96). -/
theorem rowOf_halts_iff (i : Instr) : (rowOf i).halts = true ↔ i.opcode = 0xF := by
  cases i
  case hlt => exact iff_of_true rfl rfl
  all_goals exact iff_of_false Bool.false_ne_true (by simp [Instr.opcode])

/-- The latch holds, is set by the row's own halt at micro-step 2, and is zeroed while a reset is pending (R63, R64). -/
theorem tickWith_halt (row : ExecRow) (s : State) :
    (tickWith row s).halt =
      if s.rstHold = 0 then s.halt || (decide ((tickWith row s).microStep = 2) && row.halts) else false := by
  by_cases h : s.rstHold = 0 <;> simp [tickWith, dataBoards, controlUnit, h, clockBoard]

/-- As `tickWith_halt`, with the row read from the opcode in IR. -/
theorem tick_halt_iff (s : State) :
    (tick s).halt = true ↔
      s.rstHold = 0 ∧ (s.halt = true ∨ ((tick s).microStep = 2 ∧ opcodeOf s.ir = 0xF)) := by
  have hrow : (rowOf (decode s.ir)).halts = true ↔ opcodeOf s.ir = 0xF := by
    rw [rowOf_halts_iff, opcode_decode]
  unfold tick
  rw [tickWith_halt]
  by_cases hr : s.rstHold = 0 <;> simp [hr, hrow]

/-- While the halt latch is set the clock is forced low (R59). -/
theorem tick_clk_of_halt {s : State} (h : s.halt = true) : (tick s).clk = false := by
  simp [tick, tickWith_clk, h]

/-- Settles O19: the latch by the one field equation of a tick, the clock by the clock board's. -/
theorem haltLatchSetByHltClearedByReset : Obligations.HaltLatchSetByHltClearedByReset :=
  fun s => ⟨tick_halt_iff s, tick_clk_of_halt⟩

/-! ### The accessors -/

@[simp] theorem zext8_toNat (v : Nibble) : (zext8 v).toNat = v.toNat :=
  BitVec.toNat_setWidth_of_le (by decide)

theorem observe_cells_length (s : State) : (observe s).cells.length = 16 := by
  simp [observe]

/-- The accessors list the cells by rising address, each once. -/
theorem observe_cells_getElem? (s : State) (x : Nibble) :
    (observe s).cells[x.toNat]? = some (s.mem.read x) := by
  have hx : x.toNat < 16 := x.isLt
  simp [observe, List.getElem?_range hx]

/-- Settles O32: every accessor but MAR's and the cells' is a field of the state. -/
theorem accessorsShowTheState : Obligations.AccessorsShowTheState := fun s =>
  ⟨rfl, rfl, rfl, rfl, rfl, rfl, rfl, rfl, rfl, rfl, rfl, rfl, rfl, rfl, rfl,
    zext8_toNat s.mar, observe_cells_length s, observe_cells_getElem? s⟩

end Sys2Proof.Machine
end

section
/-! Memory: the board's synchronous write and drive (spec/20_memory.md R32), and the host's load (R44). -/

namespace Sys2Proof.Machine

/-! ### The Memory board -/

/-- The write of R32, seen from every cell: the address is MAR as it stands, and the clear has no part in it (R23). -/
theorem memoryBoard_mem_read (s : State) (x : Nibble) :
    (memoryBoard s).mem.read x =
      if s.prev.mem = false ∧ s.clk = true ∧ s.sig.ri = true ∧ x = s.mar then s.bus else s.mem.read x := by
  by_cases hw : (rises s.prev.mem s.clk && s.sig.ri) = true
  · have hmem : (memoryBoard s).mem = s.mem.write s.mar s.bus := if_pos hw
    obtain ⟨⟨hprev, hclk⟩, hri⟩ : (s.prev.mem = false ∧ s.clk = true) ∧ s.sig.ri = true := by simpa using hw
    rw [hmem, Memory.read_write]
    simp [hprev, hclk, hri, eq_comm]
  · have hmem : (memoryBoard s).mem = s.mem := if_neg hw
    have hidle : ¬(s.prev.mem = false ∧ s.clk = true ∧ s.sig.ri = true ∧ x = s.mar) :=
      fun ⟨hprev, hclk, hri, _⟩ => hw (by simp [hprev, hclk, hri])
    rw [hmem, if_neg hidle]

/-- The board's frame, and its drive: the cell is read after the write (92 D11). -/
theorem memoryBoard_eq (s : State) :
    memoryBoard s =
      { s with
        mem := (memoryBoard s).mem
        prev := { s.prev with mem := s.clk }
        bus := if s.sig.ro then (memoryBoard s).mem.read s.mar else s.bus } :=
  rfl

/-- Settles O12: the memory is the one the board leaves. -/
theorem memoryBoardRule : Obligations.MemoryBoardRule :=
  fun s => ⟨(memoryBoard s).mem, memoryBoard_eq s, memoryBoard_mem_read s⟩

/-! ### Loading bytes -/

/-- Filling from cell `k` on: cell `x` holds the byte that falls on it, if there is one, else what it held before. -/
theorem Memory.read_fill (m : Memory) (k : Nat) (bytes : List Byte) (x : Nibble) :
    (m.fill k bytes).read x =
      if k ≤ x.toNat then (bytes[x.toNat - k]?).getD (m.read x) else m.read x := by
  induction bytes generalizing m k with
  | nil => simp [Memory.fill]
  | cons v rest ih =>
    by_cases hk : k < 16
    · have hother (h : x.toNat ≠ k) : (m.write (BitVec.ofNat 4 k) v).read x = m.read x :=
        Memory.read_write_other _ _ _ _ fun hx =>
          h (hx ▸ (BitVec.toNat_ofNat k 4).trans (Nat.mod_eq_of_lt hk))
      rw [Memory.fill, if_pos hk, ih]
      obtain hlt | rfl | hgt := Nat.lt_trichotomy x.toNat k
      · rw [if_neg (by omega), if_neg (by omega), hother hlt.ne]
      · simp
      · have hidx : x.toNat - k = x.toNat - (k + 1) + 1 := by omega
        rw [if_pos (Nat.succ_le_of_lt hgt), if_pos hgt.le, hidx, List.getElem?_cons_succ, hother hgt.ne']
    · have hx : x.toNat < 16 := x.isLt
      rw [Memory.fill, if_neg hk, if_neg (by omega)]

theorem loadMemory_mem_read (bytes : List Byte) (s : State) (x : Nibble) :
    (loadMemory bytes s).1.mem.read x = (bytes[x.toNat]?).getD (s.mem.read x) := by
  change (s.mem.fill 0 bytes).read x = _
  rw [Memory.read_fill, if_pos (Nat.zero_le _), Nat.sub_zero]

theorem loadMemory_truncated_iff (bytes : List Byte) (s : State) :
    (loadMemory bytes s).2 = true ↔ bytes.length > 16 :=
  decide_eq_true_iff

/-- Settles O30: the cells by the general rule for a fill, started at cell 0. -/
theorem loadMemoryWritesFirstSixteenBytes : Obligations.LoadMemoryWritesFirstSixteenBytes :=
  fun bytes s => ⟨loadMemory_truncated_iff bytes s, rfl, loadMemory_mem_read bytes s⟩

end Sys2Proof.Machine
end

section
/-! The opcode map (spec/30_encoding.md R49) and the assembler's operand range (R55). -/

namespace Sys2Proof

/-! ### The opcode map -/

/-- The opcode of each row selects that row's arm of the decoder, which puts the operand back (R47, R49). -/
@[simp] theorem decode_encode (i : Instr) : decode (encode i) = i := by
  simp only [decode, opcodeOf_encode, operandOf_encode]
  cases i <;> rfl

/-- Settles O2: the byte of row `k` is the encoding of that row's instruction. -/
theorem opcodeMapHasSixteenRows : Obligations.OpcodeMapHasSixteenRows := fun x =>
  ⟨decode_encode (.nop x), decode_encode (.lda x), decode_encode (.add x), decode_encode (.sub x),
    decode_encode (.sta x), decode_encode (.ldi x), decode_encode (.jmp x), decode_encode (.jc x),
    decode_encode (.jz x), decode_encode (.unrecognised9 x), decode_encode (.unrecognisedA x),
    decode_encode (.unrecognisedB x), decode_encode (.unrecognisedC x), decode_encode (.unrecognisedD x),
    decode_encode (.out x), decode_encode (.hlt x)⟩

/-! ### The operand range -/

theorem operandInRange_iff (n : Nat) : operandInRange n = true ↔ n ≤ 15 := decide_eq_true_iff

theorem Instr.operand_le_fifteen (i : Instr) : i.operand.toNat ≤ 15 := (operandInRange_iff _).mp i.wf_all

/-- A statement whose operand is out of range fills no cell: it is refused, not wrapped (R55). -/
theorem assemble_eq_none_of_not_wf {l : SourceLine} (h : ¬l.wf = true) : assemble l = none := if_neg h

/-- Settles O5: the range check of the eight statements with an operand is the same, and decides which branch of the
assembler answers. -/
theorem assemblerRefusesOperandsAboveFifteen : Obligations.AssemblerRefusesOperandsAboveFifteen := by
  refine ⟨fun n => ⟨fun hle => ?encoded, fun hgt => ?refused⟩, Instr.operand_le_fifteen⟩
  case encoded =>
    have hwf : operandInRange n = true := (operandInRange_iff n).mpr hle
    exact ⟨if_pos hwf, if_pos hwf, if_pos hwf, if_pos hwf, if_pos hwf, if_pos hwf, if_pos hwf, if_pos hwf⟩
  case refused =>
    have refuses {l : SourceLine} (hl : l.wf = operandInRange n) : assemble l = none :=
      assemble_eq_none_of_not_wf fun hwf => hgt.not_ge ((operandInRange_iff n).mp (hl ▸ hwf))
    exact ⟨refuses rfl, refuses rfl, refuses rfl, refuses rfl, refuses rfl, refuses rfl, refuses rfl, refuses rfl⟩

end Sys2Proof
end

section
/-! One board at a time (spec/40_microsequencer.md): the Clock (R59), the ControlUnit (R61 to R64), and the registers
(R67 to R70). -/

namespace Sys2Proof.Machine

/-! ### Clock -/

theorem clockBoard_of_not_halt {s : State} (h : s.halt = false) : clockBoard s = { s with clk := !s.clk } := by
  simp [clockBoard, h]

theorem clockBoard_of_halt {s : State} (h : s.halt = true) : clockBoard s = { s with clk := false } := by
  simp [clockBoard, h]

/-- Settles O6, by the two branches of the halt latch. -/
theorem clockTogglesUnlessHalted : Obligations.ClockTogglesUnlessHalted :=
  fun _ => ⟨clockBoard_of_not_halt, clockBoard_of_halt⟩

/-! ### ControlUnit -/

/-- The execute table by instruction is the decode table by opcode value (R64); the fetch words are the same for every
opcode (R52). -/
theorem controlWord_rowOf (i : Instr) (k : Fin 5) (c z : Bool) :
    controlWord (rowOf i) k c z = Spec.controlTable k i.opcode c z := by
  match k with
  | 0 | 1 => rfl
  | 2 | 3 | 4 => cases i <;> rfl

theorem controlWord_rowOf_decode (b : Byte) (k : Fin 5) (c z : Bool) :
    controlWord (rowOf (decode b)) k c z = Spec.controlTable k (opcodeOf b) c z := by
  rw [controlWord_rowOf, opcode_decode]

theorem rowOf_decode_halts (b : Byte) : (rowOf (decode b)).halts = decide (opcodeOf b = 0xF) := by
  rw [Bool.eq_iff_iff, rowOf_halts_iff, opcode_decode, decide_eq_true_iff]

/-- The micro-step the ControlUnit decodes (R61). -/
theorem microStep_advance (p l : Bool) (k : Fin 5) :
    (if falls p l then nextMicroStep k else k) = if p = true ∧ l = false then (if k = 4 then 0 else k + 1) else k := by
  simp [nextMicroStep]

/-- The decode branch (R64). -/
theorem controlUnit_of_rstHold_zero (row : ExecRow) {s : State} (h : s.rstHold = 0) :
    controlUnit row s =
      let k := if falls s.prev.cu s.clk then nextMicroStep s.microStep else s.microStep
      { s with
        prev := { s.prev with cu := s.clk }, microStep := k, rst := false
        sig := controlWord row k s.c s.z
        halt := s.halt || (decide (k = 2) && row.halts) } :=
  if_pos h

/-- The reset branch (R63), whatever the row. -/
theorem controlUnit_of_rstHold_ne_zero (row : ExecRow) {s : State} (h : s.rstHold ≠ 0) :
    controlUnit row s =
      { s with
        prev := { s.prev with cu := s.clk }, microStep := 0, rst := true, rstHold := countDown s.rstHold
        sig := Sig.none, halt := false } :=
  if_neg h

theorem controlUnit_rst (row : ExecRow) (s : State) : (controlUnit row s).rst = decide (s.rstHold ≠ 0) := by
  by_cases h : s.rstHold = 0
  · simp [controlUnit_of_rstHold_zero row h, h]
  · simp [controlUnit_of_rstHold_ne_zero row h, h]

theorem controlUnit_rstHold (row : ExecRow) (s : State) : (controlUnit row s).rstHold = countDown s.rstHold := by
  by_cases h : s.rstHold = 0
  · simp [controlUnit_of_rstHold_zero row h, h, countDown]
  · simp [controlUnit_of_rstHold_ne_zero row h]

/-- Settles O7: the decode branch, with the table by opcode value in place of the row. -/
theorem controlUnitFollowsDecodeTable : Obligations.ControlUnitFollowsDecodeTable := by
  intro s h
  simp only [controlUnit_of_rstHold_zero _ h, microStep_advance, controlWord_rowOf_decode, rowOf_decode_halts,
    Bool.decide_and]

/-- Settles O8: the two branches on the hold-count; a hold-count of 2 is counted down to 1 and to 0 by the first two
evaluations, and `rst` tells whether it was 0 before. -/
theorem controlUnitResetBranch : Obligations.ControlUnitResetBranch := by
  refine fun s => ⟨fun hpos => ?reset, fun h => ?decode, fun h => ?twoTicks⟩
  case reset =>
    have hne : s.rstHold ≠ 0 := Fin.pos_iff_ne_zero.mp hpos
    have hcount : countDown s.rstHold = s.rstHold - 1 := if_neg hne
    rw [controlUnit_of_rstHold_ne_zero _ hne, hcount]
    rfl
  case decode =>
    refine ⟨by simp [controlUnit_rst, h], by simp [controlUnit_rstHold, h, countDown], ?_⟩
    simp only [controlUnit_of_rstHold_zero _ h, controlWord_rowOf_decode]
  case twoTicks =>
    simp [controlUnit_rst, controlUnit_rstHold, h, countDown]

/-! ### ProgramCounter -/

@[simp] theorem lowNibble_toNat (v : Byte) : (lowNibble v).toNat = v.toNat % 16 := BitVec.toNat_setWidth 4 v

@[simp] theorem nextAddress_toNat (p : Nibble) : (nextAddress p).toNat = (p.toNat + 1) % 16 := BitVec.toNat_add p 1

/-- The clear overrides the edge logic (R67). -/
theorem pcBoard_pc (s : State) :
    (pcBoard s).pc = if s.rst then 0 else pcEdge (rises s.prev.pc s.clk) s.sig.j s.sig.ce s.bus s.pc :=
  rfl

/-- The board's frame, and its drive of the new program counter. -/
theorem pcBoard_eq (s : State) :
    pcBoard s =
      { s with
        pc := (pcBoard s).pc
        prev := { s.prev with pc := s.clk }
        bus := if s.sig.co then (pcBoard s).pc.setWidth 8 else s.bus } :=
  rfl

theorem pcEdge_of_not_rises {p l : Bool} (h : ¬(p = false ∧ l = true)) (j ce : Bool) (bus : Byte) (pc : Nibble) :
    pcEdge (rises p l) j ce bus pc = pc :=
  if_neg (by simpa using h)

/-- Settles O9: under `rst` by the clear, else by the branches of the edge logic. -/
theorem programCounterBoardRule : Obligations.ProgramCounterBoardRule := by
  refine fun s => ⟨(pcBoard s).pc, pcBoard_eq s, fun hrst => ?clear, fun hrst hedge => ?noEdge,
    fun hrst hprev hclk => ?edge⟩
  case clear => rw [pcBoard_pc, if_pos hrst]
  case noEdge => rw [pcBoard_pc, hrst, pcEdge_of_not_rises hedge]; rfl
  case edge =>
    have hpc : (pcBoard s).pc = pcEdge true s.sig.j s.sig.ce s.bus s.pc := by
      rw [pcBoard_pc, hrst, hprev, hclk]; rfl
    rw [hpc]
    refine ⟨fun hj => ?load, fun hj hce => ?count, fun hj hce => ?keep⟩
    case load => rw [hj]; exact lowNibble_toNat s.bus
    case count => rw [hj, hce]; exact nextAddress_toNat s.pc
    case keep => rw [hj, hce]; rfl

/-! ### The capturing registers -/

/-- A register of the family: cleared, else captured on a rising edge with its enable, else kept (R60, R70). -/
theorem latch_rises {w : Nat} (p l enable clear : Bool) (new old : BitVec w) :
    latch (rises p l && enable) clear new old =
      if clear then 0 else if p = false ∧ l = true ∧ enable = true then new else old := by
  simp [latch, and_assoc]

theorem marBoard_mar (s : State) :
    (marBoard s).mar =
      if s.rst then 0 else if s.prev.mar = false ∧ s.clk = true ∧ s.sig.mi = true then s.bus.setWidth 4 else s.mar :=
  latch_rises ..

theorem irBoard_ir (s : State) :
    (irBoard s).ir =
      if s.rst then 0 else if s.prev.ir = false ∧ s.clk = true ∧ s.sig.ii = true then s.bus else s.ir :=
  latch_rises ..

theorem aBoard_a (s : State) :
    (aBoard s).a = if s.rst then 0 else if s.prev.a = false ∧ s.clk = true ∧ s.sig.ai = true then s.bus else s.a :=
  latch_rises ..

theorem bBoard_b (s : State) :
    (bBoard s).b = if s.rst then 0 else if s.prev.b = false ∧ s.clk = true ∧ s.sig.bi = true then s.bus else s.b :=
  latch_rises ..

theorem outBoard_out (s : State) :
    (outBoard s).out =
      if s.rst then 0 else if s.prev.out = false ∧ s.clk = true ∧ s.sig.oi = true then s.bus else s.out :=
  latch_rises ..

/-- Settles O10: each register's value by the common capture rule; the rest of each board is its frame and drive. -/
theorem addressAndInstructionRegisterRules : Obligations.AddressAndInstructionRegisterRules := by
  refine fun s => ⟨?mar, (irBoard s).ir, irBoard_ir s, rfl⟩
  rw [← marBoard_mar]
  rfl

/-- Settles O11: as for the address register, for the three generic registers. -/
theorem genericRegisterRule : Obligations.GenericRegisterRule := by
  refine fun s => ⟨?b, ?out, (aBoard s).a, aBoard_a s, rfl⟩
  case b => rw [← bBoard_b]; rfl
  case out => rw [← outBoard_out]; rfl

end Sys2Proof.Machine
end

section
/-! One micro-step as a transfer (spec/40_microsequencer.md R71, R72): the falling-edge tick puts what the one asserted
driver presents on the bus, and the rising-edge tick after it hands that value to every capturing board. -/

namespace Sys2Proof.Machine

open Sys2Proof.Spec

/-! ### Words that transfer -/

/-- A word under which the bus is steady through a micro-step: one driver at most, and no register that PC, Memory or
IR drives from, nor the address of a store, changes in the same micro-step. -/
abbrev Sig.IsTransfer (g : Sig) : Prop :=
  g.drivers ≤ 1 ∧ (g.co = true → g.j = false ∧ g.ce = false) ∧ (g.ro = true → g.mi = false ∧ g.ri = false) ∧
    (g.io = true → g.ii = false) ∧ (g.ri = true → g.mi = false)

/-- Every control word of the decode table is such a word. -/
theorem controlWord_isTransfer (i : Instr) (k : Fin 5) (c z : Bool) : (controlWord (rowOf i) k c z).IsTransfer := by
  rw [controlWord_rowOf]
  generalize i.opcode = op
  revert k op c z
  decide

/-- With one driver at most, each driver rules out those after it in the order of R58. -/
theorem Sig.drivers_exclusive {g : Sig} (h : g.drivers ≤ 1) :
    (g.co = true → g.ro = false ∧ g.io = false ∧ g.eo = false ∧ g.ao = false) ∧
    (g.ro = true → g.io = false ∧ g.eo = false ∧ g.ao = false) ∧
    (g.io = true → g.eo = false ∧ g.ao = false) ∧ (g.eo = true → g.ao = false) := by
  unfold Sig.drivers at h
  generalize g.co = co, g.ro = ro, g.io = io, g.eo = eo, g.ao = ao at *
  revert co ro io eo ao
  decide

/-- The data boards' part of a micro-step: every capture, write and commit of the word `g` at once, of the value
presented at its start (R72). -/
def transfer (g : Sig) (s : State) : State :=
  { s with
    bus := presented g s
    a := if g.ai then presented g s else s.a
    b := if g.bi then presented g s else s.b
    out := if g.oi then presented g s else s.out
    ir := if g.ii then presented g s else s.ir
    mar := if g.mi then lowNibble (presented g s) else s.mar
    pc := pcEdge true g.j g.ce (presented g s) s.pc
    mem := if g.ri then s.mem.write s.mar (presented g s) else s.mem
    aluResult := aluValue g.su s.a s.b
    pendC := aluCarry g.su s.a s.b
    pendZ := aluZero g.su s.a s.b
    c := if g.fi then aluCarry g.su s.a s.b else s.c
    z := if g.fi then aluZero g.su s.a s.b else s.z
    rst := false
    sig := g }

/-! ### The bus through a micro-step -/

/-- The drives of a falling-edge tick, board after board, leave what the one driver presents. -/
theorem drive_chain_eq_presented {g : Sig} (h : g.drivers ≤ 1) (s : State) :
    (drive g.ao s.a <| drive g.eo (aluValue g.su s.a s.b) <| drive g.io (zext8 (operandOf s.ir)) <|
      drive g.ro (s.mem.read s.mar) <| drive g.co (zext8 s.pc) s.bus) = presented g s := by
  obtain ⟨hco, hro, hio, heo⟩ := Sig.drivers_exclusive h
  unfold presented
  split_ifs <;> simp_all [drive, aluValue]

theorem drive_eq_self {enable : Bool} {v bus : Byte} (h : enable = true → v = bus) : drive enable v bus = bus := by
  cases enable
  · rfl
  · exact h rfl

/-- What each driver presents, where it is the only one. -/
theorem eq_presented_of_drives {g : Sig} (h : g.drivers ≤ 1) (s : State) :
    (g.co = true → zext8 s.pc = presented g s) ∧ (g.ro = true → s.mem.read s.mar = presented g s) ∧
    (g.io = true → zext8 (operandOf s.ir) = presented g s) ∧
    (g.eo = true → aluValue g.su s.a s.b = presented g s) ∧ (g.ao = true → s.a = presented g s) := by
  obtain ⟨hco, hro, hio, heo⟩ := Sig.drivers_exclusive h
  unfold presented
  split_ifs <;> simp_all [aluValue]

/-! ### The two ticks of a micro-step -/

/-- The state halfway through the micro-step `k`: the word `g` is out and its driver on the bus, nothing is captured. -/
def present (g : Sig) (k : Fin 5) (s : State) : State :=
  { s with
    clk := false
    prev := Prev.all false
    microStep := k
    rst := false
    sig := g
    aluResult := aluValue g.su s.a s.b
    pendC := aluCarry g.su s.a s.b
    pendZ := aluZero g.su s.a s.b
    bus := presented g s }

/-- The driver still presents what it has put on the bus; with none, the bus keeps its value. -/
@[simp] theorem presented_present (g : Sig) (k : Fin 5) (s : State) : presented g (present g k s) = presented g s := by
  by_cases hdrives : g.co ∨ g.ro ∨ g.io ∨ g.eo ∨ g.ao
  · rcases hdrives with h | h | h | h | h <;> simp [presented, present, h]
  · simp_all [presented, present]

theorem transfer_present (g : Sig) (k : Fin 5) (s : State) :
    transfer g (present g k s) = { transfer g s with clk := false, prev := Prev.all false, microStep := k } := by
  unfold transfer
  rw [presented_present]
  rfl

/-- The falling-edge tick of a micro-step that does not halt. -/
theorem tickWith_eq_present (row : ExecRow) {s : State} {g : Sig} {k : Fin 5} (hrun : s.Running) (hclk : s.clk = true)
    (hk : nextMicroStep s.microStep = k) (hword : controlWord row k s.c s.z = g) (hg : g.drivers ≤ 1)
    (hgo : (decide (k = 2) && row.halts) = false) :
    tickWith row s = present g k s := by
  obtain ⟨hhalt, hhold, hprev⟩ := hrun
  rw [tickWith_falling row s hhalt hhold (hclk ▸ hprev) hclk, hk, hword, hgo, present,
    ← drive_chain_eq_presented hg s, hhalt]

/-- The rising-edge tick, where the bus holds what the driver presents: every drive repeats that value, so the order
of the boards does not show (R72). -/
theorem tickWith_rising_transfers (row : ExecRow) {s : State} {g : Sig} (hrun : s.Running) (hclk : s.clk = false)
    (hword : controlWord row s.microStep s.c s.z = g) (hg : g.IsTransfer) (hbus : s.bus = presented g s)
    (hgo : (decide (s.microStep = 2) && row.halts) = false) :
    tickWith row s = { transfer g s with clk := true, prev := Prev.all true } := by
  obtain ⟨hhalt, hhold, hprev⟩ := hrun
  obtain ⟨hone, hpc, hmem, hir, hstore⟩ := hg
  obtain ⟨eqCo, eqRo, eqIo, eqEo, eqAo⟩ := eq_presented_of_drives hone s
  have driveCo : drive g.co (zext8 (pcEdge true g.j g.ce s.bus s.pc)) s.bus = s.bus :=
    drive_eq_self fun h => by simp [pcEdge, hpc h, eqCo h, hbus]
  have storeMar : (if g.ri then s.mem.write (if g.mi then lowNibble s.bus else s.mar) s.bus else s.mem) =
      if g.ri then s.mem.write s.mar s.bus else s.mem := by
    split
    next h => rw [hstore h]; rfl
    next => rfl
  have driveRo : drive g.ro ((if g.ri then s.mem.write s.mar s.bus else s.mem).read
      (if g.mi then lowNibble s.bus else s.mar)) s.bus = s.bus :=
    drive_eq_self fun h => by simp [hmem h, eqRo h, hbus]
  have driveIo : drive g.io (zext8 (operandOf (if g.ii then s.bus else s.ir))) s.bus = s.bus :=
    drive_eq_self fun h => by simp [hir h, eqIo h, hbus]
  have driveEo : drive g.eo (aluValue g.su s.a s.b) s.bus = s.bus := drive_eq_self fun h => by rw [eqEo h, hbus]
  have driveAo : drive g.ao (if g.ai then s.bus else s.a) s.bus = s.bus :=
    drive_eq_self fun h => by split <;> simp [eqAo h, hbus]
  rw [tickWith_rising row s hhalt hhold (hclk ▸ hprev) hclk, hword]
  simp only [driveCo, storeMar, driveRo, driveIo, driveEo, driveAo, hgo, hhold, hhalt, transfer, ← hbus]

/-- A micro-step of a running core, from rising edge to rising edge. -/
theorem ticksWith_two (row : ExecRow) {s : State} {g : Sig} {k : Fin 5} (hrun : s.Running) (hclk : s.clk = true)
    (hk : nextMicroStep s.microStep = k) (hword : controlWord row k s.c s.z = g) (hg : g.IsTransfer)
    (hgo : (decide (k = 2) && row.halts) = false) :
    ticksWith row 2 s = { transfer g s with microStep := k } := by
  obtain ⟨hhalt, hhold, hprev⟩ := hrun
  change tickWith row (tickWith row s) = _
  rw [tickWith_eq_present row ⟨hhalt, hhold, hprev⟩ hclk hk hword hg.1 hgo,
    tickWith_rising_transfers row (s := present g k s) ⟨hhalt, hhold, rfl⟩ rfl hword hg
      (presented_present g k s).symm hgo,
    transfer_present]
  simp [transfer, hclk, hprev]

end Sys2Proof.Machine
end

section
/-! The execute phase from the end of a fetch (spec/40_microsequencer.md R71, R74): the transfers of micro-steps 2, 3
and 4, as `exec` and as six ticks of the boards. -/

namespace Sys2Proof.Machine

/-- Each arm of `exec` is the execute phase under the instruction's own row, with its own byte (log 6). -/
theorem exec_eq_executePhase (i : Instr) (s : State) :
    exec i s = .next (executePhase (rowOf i) (encode i) s) := by
  cases i <;> rfl

/-- While IR holds an instruction's byte, the boards sequence that instruction. -/
theorem tick_of_ir {i : Instr} {s : State} (h : s.ir = encode i) : tick s = tickWith (rowOf i) s := by
  rw [tick, h, decode_encode]

/-- Only the fetch writes IR (R64). -/
theorem controlWord_ii (i : Instr) {k : Fin 5} (hk : 2 ≤ k) (c z : Bool) : (controlWord (rowOf i) k c z).ii = false := by
  rw [controlWord_rowOf]
  generalize i.opcode = op
  revert k op c z
  decide

theorem transfer_ir {g : Sig} (h : g.ii = false) (s : State) : (transfer g s).ir = s.ir := by
  simp [transfer, h]

/-- A micro-step of the whole core, the row taken from IR in each of its two ticks. -/
theorem ticks_two (i : Instr) {s : State} {g : Sig} {k : Fin 5} (hrun : s.Running) (hclk : s.clk = true)
    (hir : s.ir = encode i) (hk : nextMicroStep s.microStep = k) (hword : controlWord (rowOf i) k s.c s.z = g)
    (hgo : (decide (k = 2) && (rowOf i).halts) = false) :
    ticks 2 s = { transfer g s with microStep := k } := by
  have hg : g.IsTransfer := hword ▸ controlWord_isTransfer i k s.c s.z
  have hfall : tickWith (rowOf i) s = present g k s := tickWith_eq_present _ hrun hclk hk hword hg.1 hgo
  have hkept : (tickWith (rowOf i) s).ir = encode i := by rw [hfall]; exact hir
  rw [← ticksWith_two _ hrun hclk hk hword hg hgo]
  change tick (tick s) = tickWith (rowOf i) (tickWith (rowOf i) s)
  rw [tick_of_ir hir, tick_of_ir hkept]

/-! ### After each micro-step of the phase -/

/-- After micro-step 2, from the end of the fetch of `i`. -/
def afterStepTwo (i : Instr) (s : State) : State :=
  { transfer (controlWord (rowOf i) 2 s.c s.z) { s with ir := encode i } with microStep := 2 }

/-- After micro-step 3. -/
def afterStepThree (i : Instr) (s : State) : State :=
  { transfer (rowOf i).three (afterStepTwo i s) with microStep := 3 }

/-- After micro-step 4: the instruction boundary. -/
def afterStepFour (i : Instr) (s : State) : State :=
  { transfer (rowOf i).four (afterStepThree i s) with microStep := 4 }

theorem afterStepTwo_ir (i : Instr) (s : State) : (afterStepTwo i s).ir = encode i :=
  transfer_ir (controlWord_ii i (by decide) s.c s.z) _

theorem afterStepThree_ir (i : Instr) (s : State) : (afterStepThree i s).ir = encode i :=
  (transfer_ir (controlWord_ii i (k := 3) (by decide) false false) _).trans (afterStepTwo_ir i s)

section
variable {i : Instr} {s : State}

theorem afterStepFour_boundary (i : Instr) (h : s.FetchDone) : (afterStepFour i s).Boundary := ⟨rfl, h.2⟩

/-- The phase as ticks of the boards: two for each micro-step. -/
theorem ticks_two_of_fetchDone (h : s.FetchDone) (hgo : (rowOf i).halts = false) :
    ticks 2 { s with ir := encode i } = afterStepTwo i s := by
  obtain ⟨hstep, hclk, hrun⟩ := h
  exact ticks_two i hrun hclk rfl (congrArg nextMicroStep hstep) rfl (by simp [hgo])

theorem ticks_four_of_fetchDone (h : s.FetchDone) (hgo : (rowOf i).halts = false) :
    ticks 4 { s with ir := encode i } = afterStepThree i s := by
  rw [ticks_add 2 2, ticks_two_of_fetchDone h hgo]
  obtain ⟨-, hclk, hrun⟩ := h
  exact ticks_two i hrun hclk (afterStepTwo_ir i s) rfl rfl rfl

theorem ticks_six_of_fetchDone (h : s.FetchDone) (hgo : (rowOf i).halts = false) :
    ticks 6 { s with ir := encode i } = afterStepFour i s := by
  rw [ticks_add 4 2, ticks_four_of_fetchDone h hgo]
  obtain ⟨-, hclk, hrun⟩ := h
  exact ticks_two i hrun hclk (afterStepThree_ir i s) rfl rfl rfl

/-- The falling-edge tick of micro-step 3 captures nothing. -/
theorem ticks_three_of_fetchDone (h : s.FetchDone) (hgo : (rowOf i).halts = false) :
    ticks 3 { s with ir := encode i } = present (rowOf i).three 3 (afterStepTwo i s) := by
  rw [ticks_add 2 1, ticks_two_of_fetchDone h hgo]
  obtain ⟨-, hclk, hrun⟩ := h
  change tick (afterStepTwo i s) = _
  rw [tick_of_ir (afterStepTwo_ir i s)]
  exact tickWith_eq_present _ hrun hclk rfl rfl (controlWord_isTransfer i 3 s.c s.z).1 rfl

theorem executePhase_of_fetchDone (h : s.FetchDone) (hgo : (rowOf i).halts = false) :
    executePhase (rowOf i) (encode i) s = afterStepFour i s := by
  obtain ⟨hstep, hclk, hrun⟩ := h
  have two : ticksWith (rowOf i) 2 { s with ir := encode i } = afterStepTwo i s :=
    ticksWith_two _ hrun hclk (congrArg nextMicroStep hstep) rfl (controlWord_isTransfer i 2 s.c s.z) (by simp [hgo])
  have three : ticksWith (rowOf i) 2 (afterStepTwo i s) = afterStepThree i s :=
    ticksWith_two _ hrun hclk rfl rfl (controlWord_isTransfer i 3 s.c s.z) rfl
  have four : ticksWith (rowOf i) 2 (afterStepThree i s) = afterStepFour i s :=
    ticksWith_two _ hrun hclk rfl rfl (controlWord_isTransfer i 4 s.c s.z) rfl
  rw [executePhase, ticksWith_add _ 4 2, ticksWith_add _ 2 2, two, three, four]

/-- `exec` of an instruction that does not halt, from the end of its fetch. -/
theorem exec_of_fetchDone (h : s.FetchDone) (hgo : (rowOf i).halts = false) : exec i s = .next (afterStepFour i s) := by
  rw [exec_eq_executePhase, executePhase_of_fetchDone h hgo]

end

end Sys2Proof.Machine
end

section
/-! LDA, STA and LDI (spec/41_load_store.md R81 to R83), by the transfers of their micro-steps. -/

namespace Sys2Proof.Machine

open Sys2Proof.Spec

/-! ### The words that drive the operand: `transfer {}` is what every micro-step does, the rest is the word's own -/

/-- `IO, MI`: the operand goes to MAR (R81, R82). -/
theorem transfer_io_mi (s : State) :
    transfer { io := true, mi := true } s =
      { transfer {} s with
        sig := { io := true, mi := true }
        bus := zext8 (operandOf s.ir)
        mar := operandOf s.ir } := by
  rw [transfer, presented]
  simp only [if_true, Bool.false_eq_true, if_false, lowNibble_zext8]
  rfl

/-- `IO, AI`: the operand, zero-extended, goes to A (R83). -/
theorem transfer_io_ai (s : State) :
    transfer { io := true, ai := true } s =
      { transfer {} s with
        sig := { io := true, ai := true }
        bus := zext8 (operandOf s.ir)
        a := zext8 (operandOf s.ir) } :=
  rfl

/-- Micro-step 2 of an instruction with an address. -/
theorem afterStepTwo_of_io_mi {i : Instr} {s : State}
    (hword : controlWord (rowOf i) 2 s.c s.z = { io := true, mi := true }) :
    afterStepTwo i s =
      { transfer {} s with
        ir := encode i
        sig := { io := true, mi := true }
        bus := zext8 i.operand
        mar := i.operand
        microStep := 2 } := by
  rw [afterStepTwo, hword, transfer_io_mi, operandOf_encode]
  rfl

/-! ### The state at the end of each instruction: the later words hold no operand, so their transfers compute -/

theorem afterStepFour_lda (addr : Nibble) (s : State) :
    afterStepFour (.lda addr) s =
      { transfer {} { s with a := s.mem.read addr } with
        ir := encode (.lda addr)
        mar := addr
        bus := s.mem.read addr
        microStep := 4 } := by
  rw [afterStepFour, afterStepThree, afterStepTwo_of_io_mi rfl]
  rfl

theorem afterStepThree_sta (addr : Nibble) (s : State) :
    afterStepThree (.sta addr) s =
      { transfer {} s with
        ir := encode (.sta addr)
        mar := addr
        sig := { ao := true, ri := true }
        bus := s.a
        mem := s.mem.write addr s.a
        microStep := 3 } := by
  rw [afterStepThree, afterStepTwo_of_io_mi rfl]
  rfl

theorem afterStepFour_sta (addr : Nibble) (s : State) :
    afterStepFour (.sta addr) s =
      { transfer {} s with
        ir := encode (.sta addr)
        mar := addr
        bus := s.a
        mem := s.mem.write addr s.a
        microStep := 4 } := by
  rw [afterStepFour, afterStepThree_sta]
  rfl

theorem afterStepFour_ldi (imm : Nibble) (s : State) :
    afterStepFour (.ldi imm) s =
      { transfer {} { s with a := immediateValue imm } with
        ir := encode (.ldi imm)
        bus := immediateValue imm
        microStep := 4 } := by
  have two : afterStepTwo (.ldi imm) s =
      { transfer {} s with
        ir := encode (.ldi imm)
        sig := { io := true, ai := true }
        bus := immediateValue imm
        a := immediateValue imm
        microStep := 2 } := by
    change ({ transfer { io := true, ai := true } _ with microStep := 2 } : State) = _
    rw [transfer_io_ai, operandOf_encode]
    rfl
  rw [afterStepFour, afterStepThree, two]
  rfl

/-- Settles O42: MAR takes the operand, then A the cell there; the pending flags are those of micro-step 4, whose ALU
sees the new A. -/
theorem ldaLoadsTheAddressedCell : Obligations.LdaLoadsTheAddressedCell := by
  intro addr s h
  refine ⟨decode_encode (.lda addr), fun _ _ => ⟨rfl, rfl, rfl⟩, afterStepFour (.lda addr) s, exec_of_fetchDone h rfl,
    afterStepFour_boundary _ h, (ticks_six_of_fetchDone h rfl).symm, ?_⟩
  rw [afterStepFour_lda]
  exact ⟨rfl, rfl, rfl, fun _ => rfl⟩

/-- Settles O43: the store is the transfer of micro-step 3, so its falling-edge tick (the third) leaves memory as it
was and its rising-edge tick (the fourth) writes the cell. -/
theorem staStoresAccumulator : Obligations.StaStoresAccumulator := by
  intro addr s h
  refine ⟨decode_encode (.sta addr), fun _ _ => ⟨rfl, rfl, rfl⟩, afterStepFour (.sta addr) s, exec_of_fetchDone h rfl,
    afterStepFour_boundary _ h, (ticks_six_of_fetchDone h rfl).symm, ?regs, ?stored, fun x hx => ?others,
    fun x => ?thirdTick, ?fourthTick⟩
  case regs => rw [afterStepFour_sta]; rfl
  case stored => rw [afterStepFour_sta]; exact Memory.read_write_same s.mem addr s.a
  case others => rw [afterStepFour_sta]; exact Memory.read_write_other s.mem addr x s.a hx.symm
  case thirdTick =>
    change (ticks 3 { s with ir := encode (.sta addr) }).mem.read x = _
    rw [ticks_three_of_fetchDone h rfl, afterStepTwo_of_io_mi rfl]
    rfl
  case fourthTick =>
    change (ticks 4 { s with ir := encode (.sta addr) }).mem.read addr = _
    rw [ticks_four_of_fetchDone h rfl, afterStepThree_sta]
    exact Memory.read_write_same s.mem addr s.a

/-- Settles O44: A takes the operand in micro-step 2, and the other two micro-steps assert no signal. -/
theorem ldiLoadsZeroExtendedImmediate : Obligations.LdiLoadsZeroExtendedImmediate := by
  intro imm s h
  refine ⟨decode_encode (.ldi imm), fun _ _ => ⟨rfl, rfl, rfl⟩, afterStepFour (.ldi imm) s, exec_of_fetchDone h rfl,
    afterStepFour_boundary _ h, (ticks_six_of_fetchDone h rfl).symm, ?_⟩
  rw [afterStepFour_ldi]
  exact ⟨rfl, fun _ => rfl⟩

end Sys2Proof.Machine
end

section
/-! The ArithmeticUnit board (spec/42_arithmetic.md R84), and ADD and SUB (R87, R88) by the transfers of their
micro-steps. -/

namespace Sys2Proof.Machine

/-! ### Result and flags in exact arithmetic -/

theorem aluValue_toNat (su : Bool) (a b : Byte) :
    (aluValue su a b).toNat =
      if su then (a.toNat + 256 - b.toNat) % 256 else (a.toNat + b.toNat) % 256 := by
  cases su
  case false => exact BitVec.toNat_add a b
  case true =>
    have hb : b.toNat < 256 := b.isLt
    change (a - b).toNat = (a.toNat + 256 - b.toNat) % 256
    rw [BitVec.toNat_sub]
    omega

/-- The pending carry of R84: of the exact sum, or the unsigned borrow (R86). -/
theorem aluCarry_iff (su : Bool) (a b : Byte) :
    aluCarry su a b = true ↔ if su then a.toNat < b.toNat else a.toNat + b.toNat > 255 := by
  cases su <;> exact decide_eq_true_iff

theorem aluZero_iff (su : Bool) (a b : Byte) : aluZero su a b = true ↔ (aluValue su a b).toNat = 0 := by
  rw [aluZero, beq_iff_eq, ← BitVec.toNat_inj]
  rfl

theorem aluValue_add (a b : Byte) : aluValue false a b = BitVec.ofNat 8 ((a.toNat + b.toNat) % 256) := by
  change a + b = _
  bv_omega

/-- Seen from the integers, the byte of the exact difference is the difference of the bytes (R88). -/
theorem aluValue_sub (a b : Byte) : aluValue true a b = BitVec.ofInt 8 ((a.toNat : Int) - (b.toNat : Int)) := by
  change a - b = _
  apply BitVec.eq_of_toInt_eq
  rw [BitVec.toInt_sub, BitVec.toInt_ofInt, BitVec.toInt_eq_toNat_bmod, BitVec.toInt_eq_toNat_bmod, ← Int.sub_bmod]

theorem aluZero_add (a b : Byte) : aluZero false a b = decide ((a.toNat + b.toNat) % 256 = 0) := by
  rw [Bool.eq_iff_iff, aluZero_iff, aluValue_toNat, decide_eq_true_iff]
  rfl

/-- A difference is zero modulo 256 only between equal bytes (R88). -/
theorem aluZero_sub (a b : Byte) : aluZero true a b = decide (a = b) := by
  rw [Bool.eq_iff_iff, decide_eq_true_iff, aluZero, beq_iff_eq]
  exact sub_eq_zero

/-- A borrow says that the operands differ (R88). -/
theorem not_borrow_and_zero (a b : Byte) : ¬(aluCarry true a b = true ∧ aluZero true a b = true) := by
  rw [aluCarry_iff, aluZero_sub, decide_eq_true_iff]
  rintro ⟨hlt, rfl⟩
  exact lt_irrefl _ hlt

/-! ### ArithmeticUnit -/

/-- A committed flag: cleared, else committed on a rising edge with FI, else kept (R60, R84). -/
theorem latchFlag_rises (p l enable clear new old : Bool) :
    latchFlag (rises p l && enable) clear new old =
      if clear then false else if p = false ∧ l = true ∧ enable = true then new else old := by
  simp [latchFlag, and_assoc]

/-- The whole board: result and pending flags whatever the clear, the two latches, the drive, and the frame. -/
theorem aluBoard_eq (s : State) :
    aluBoard s =
      { s with
        aluResult := aluValue s.sig.su s.a s.b
        pendC := aluCarry s.sig.su s.a s.b
        pendZ := aluZero s.sig.su s.a s.b
        c :=
          if s.rst then false
          else if s.prev.alu = false ∧ s.clk = true ∧ s.sig.fi = true then aluCarry s.sig.su s.a s.b else s.c
        z :=
          if s.rst then false
          else if s.prev.alu = false ∧ s.clk = true ∧ s.sig.fi = true then aluZero s.sig.su s.a s.b else s.z
        bus := if s.sig.eo then aluValue s.sig.su s.a s.b else s.bus
        prev := { s.prev with alu := s.clk } } := by
  rw [← latchFlag_rises, ← latchFlag_rises]
  rfl

/-- Settles O13: the result and the pending flags are those of the model's ALU, in exact arithmetic. -/
theorem arithmeticUnitRule : Obligations.ArithmeticUnitRule := fun s =>
  ⟨aluValue s.sig.su s.a s.b, aluCarry s.sig.su s.a s.b, aluZero s.sig.su s.a s.b, aluValue_toNat .., aluCarry_iff ..,
    aluZero_iff .., aluBoard_eq s⟩

/-! ### ADD and SUB: one execute phase, with or without subtract-select -/

/-- B takes the cell in micro-step 3, so that in micro-step 4 the ALU works on the old A and the cell; its rising edge
commits the flags of that same result (R87, R88). -/
theorem afterStepFour_of_alu {i : Instr} {s : State} {su : Bool}
    (two : controlWord (rowOf i) 2 s.c s.z = { io := true, mi := true })
    (three : (rowOf i).three = { ro := true, bi := true })
    (four : (rowOf i).four = { eo := true, ai := true, su := su, fi := true }) :
    afterStepFour i s =
      { s with
        ir := encode i
        mar := i.operand
        b := s.mem.read i.operand
        a := aluValue su s.a (s.mem.read i.operand)
        c := aluCarry su s.a (s.mem.read i.operand)
        z := aluZero su s.a (s.mem.read i.operand)
        aluResult := aluValue su s.a (s.mem.read i.operand)
        pendC := aluCarry su s.a (s.mem.read i.operand)
        pendZ := aluZero su s.a (s.mem.read i.operand)
        bus := aluValue su s.a (s.mem.read i.operand)
        rst := false
        sig := { eo := true, ai := true, su := su, fi := true }
        microStep := 4 } := by
  rw [afterStepFour, afterStepThree, afterStepTwo_of_io_mi two, three, four]
  rfl

/-- Settles O45: the phase without subtract-select, its result and flags in exact arithmetic. -/
theorem addSumsAndSetsCarryAndZero : Obligations.AddSumsAndSetsCarryAndZero := by
  intro addr s h sum
  refine ⟨decode_encode (.add addr), fun _ _ => ⟨rfl, rfl, rfl⟩, afterStepFour (.add addr) s, exec_of_fetchDone h rfl,
    afterStepFour_boundary _ h, (ticks_six_of_fetchDone h rfl).symm, ?_⟩
  rw [afterStepFour_of_alu (su := false) rfl rfl rfl, ← aluValue_add, ← aluZero_add]
  exact ⟨rfl, fun _ => rfl⟩

/-- Settles O46: the phase with subtract-select; C and Z exclude each other because a borrow means unequal operands. -/
theorem subDiffersAndSetsBorrowAndZero : Obligations.SubDiffersAndSetsBorrowAndZero := by
  intro addr s h m
  refine ⟨decode_encode (.sub addr), fun _ _ => ⟨rfl, rfl, rfl⟩, afterStepFour (.sub addr) s, exec_of_fetchDone h rfl,
    afterStepFour_boundary _ h, (ticks_six_of_fetchDone h rfl).symm, ?_⟩
  rw [afterStepFour_of_alu (su := true) rfl rfl rfl, ← aluValue_sub, ← aluZero_sub]
  exact ⟨rfl, not_borrow_and_zero s.a m, fun _ => rfl⟩

end Sys2Proof.Machine
end

section
/-! JMP, JC and JZ (spec/43_control_transfer.md R90 to R92): one execute phase that drives the operand, with
jump-load asserted always, by C or by Z. -/

namespace Sys2Proof.Machine

open Sys2Proof.Spec

/-- `IO`, and `J` where the jump is taken: the operand goes on the bus either way (92 D6), and to PC with `J`. -/
theorem transfer_io_j (j : Bool) (s : State) :
    transfer { io := true, j := j } s =
      { transfer {} s with
        sig := { io := true, j := j }
        bus := zext8 (operandOf s.ir)
        pc := if j then operandOf s.ir else s.pc } := by
  cases j
  case false => rfl
  case true =>
    have hload : lowNibble (presented { io := true, j := true } s) = operandOf s.ir := lowNibble_zext8 _
    rw [transfer, pcEdge, hload]
    rfl

section
variable {i : Instr} {s : State} {j : Bool}

/-- PC takes its value in micro-step 2; the other two micro-steps assert no signal (R89). -/
theorem afterStepFour_of_io_j
    (two : controlWord (rowOf i) 2 s.c s.z = { io := true, j := j })
    (three : (rowOf i).three = {}) (four : (rowOf i).four = {}) :
    afterStepFour i s =
      { transfer {} s with
        ir := encode i
        pc := if j then i.operand else s.pc
        bus := zext8 i.operand
        microStep := 4 } := by
  rw [afterStepFour, afterStepThree, afterStepTwo, two, three, four, transfer_io_j, operandOf_encode]
  rfl

/-- What the three jumps share, with `j` for whether this one is taken: the ticks, and the effect with its frame. -/
theorem exec_jump_of_fetchDone (h : s.FetchDone) (hgo : (rowOf i).halts = false)
    (two : controlWord (rowOf i) 2 s.c s.z = { io := true, j := j })
    (three : (rowOf i).three = {}) (four : (rowOf i).four = {}) :
    ∃ t : State, exec i s = .next t ∧ t.Boundary ∧ t = ticks 6 { s with ir := encode i } ∧
      t.regs = { s.regs with ir := encode i, pc := if j = true then i.operand else s.pc } ∧
      t.bus = zext8 i.operand ∧ ∀ x : Nibble, t.mem.read x = s.mem.read x := by
  refine ⟨afterStepFour i s, exec_of_fetchDone h hgo, afterStepFour_boundary i h, (ticks_six_of_fetchDone h hgo).symm, ?_⟩
  rw [afterStepFour_of_io_j two three four]
  exact ⟨rfl, rfl, fun _ => rfl⟩

end

/-- Settles O47: the jump always taken. -/
theorem jmpLoadsProgramCounter : Obligations.JmpLoadsProgramCounter := by
  intro addr s h
  obtain ⟨t, hexec, hboundary, hticks, hregs, -, hmem⟩ :=
    exec_jump_of_fetchDone (i := .jmp addr) (j := true) h rfl rfl rfl rfl
  exact ⟨decode_encode (.jmp addr), fun _ _ => ⟨rfl, rfl, rfl⟩, t, hexec, hboundary, hticks, hregs, hmem⟩

/-- Settles O48: the jump taken by the committed carry. -/
theorem jcJumpsExactlyOnCarry : Obligations.JcJumpsExactlyOnCarry := fun addr s h =>
  ⟨decode_encode (.jc addr), fun _ _ => ⟨rfl, rfl, rfl⟩,
    exec_jump_of_fetchDone (i := .jc addr) (j := s.c) h rfl rfl rfl rfl⟩

/-- Settles O49: the jump taken by the committed zero flag. -/
theorem jzJumpsExactlyOnZero : Obligations.JzJumpsExactlyOnZero := fun addr s h =>
  ⟨decode_encode (.jz addr), fun _ _ => ⟨rfl, rfl, rfl⟩,
    exec_jump_of_fetchDone (i := .jz addr) (j := s.z) h rfl rfl rfl rfl⟩

end Sys2Proof.Machine
end

section
/-! NOP, the five unrecognised opcodes, OUT and HLT (spec/44_system.md R93 to R96): the empty row, the one transfer of
OUT, and the frozen state that HLT leaves. -/

namespace Sys2Proof.Machine

open Sys2Proof.Spec

/-! ### NOP and the unrecognised opcodes: the row that names nothing -/

/-- Where micro-steps 3 and 4 assert no signal, the instruction's effect is that of micro-step 2; the two idle transfers
are one, which refreshes the ALU's live outputs. -/
theorem afterStepFour_of_idle_three_four {i : Instr} (three : (rowOf i).three = {}) (four : (rowOf i).four = {})
    (s : State) : afterStepFour i s = { transfer {} (afterStepTwo i s) with microStep := 4 } := by
  rw [afterStepFour, afterStepThree, three, four]
  rfl

section
variable {i : Instr}

theorem microSteps_of_empty_row (hrow : rowOf i = {}) : MicroSteps i noSignal noSignal noSignal := fun _ _ => by
  rw [hrow]
  exact ⟨rfl, rfl, rfl⟩

theorem afterStepFour_of_empty_row (hrow : rowOf i = {}) (s : State) :
    afterStepFour i s = { transfer {} s with ir := encode i, microStep := 4 } := by
  rw [afterStepFour_of_idle_three_four (by rw [hrow]) (by rw [hrow]), afterStepTwo, hrow]
  rfl

/-- What the six opcodes with the empty row share (R93, R94). No board drives, so the bus too keeps its value. -/
theorem exec_of_empty_row {s : State} (hrow : rowOf i = {}) (h : s.FetchDone) :
    ∃ t : State, exec i s = .next t ∧ t.Boundary ∧ t = ticks 6 { s with ir := encode i } ∧
      t.regs = { s.regs with ir := encode i } ∧ t.bus = s.bus ∧ ∀ y : Nibble, t.mem.read y = s.mem.read y := by
  have hgo : (rowOf i).halts = false := by rw [hrow]
  refine ⟨afterStepFour i s, exec_of_fetchDone h hgo, afterStepFour_boundary i h,
    (ticks_six_of_fetchDone h hgo).symm, ?_⟩
  rw [afterStepFour_of_empty_row hrow]
  exact ⟨rfl, rfl, fun _ => rfl⟩

end

/-- Settles O50: NOP's row is empty. -/
theorem nopChangesNothingBeyondTheFetch : Obligations.NopChangesNothingBeyondTheFetch := fun x _ h =>
  ⟨decode_encode (.nop x), microSteps_of_empty_row rfl, exec_of_empty_row (i := .nop x) rfl h⟩

/-- Settles O51: each of the five has the empty row, and its byte is its opcode beside the operand. -/
theorem unrecognisedOpcodesAreNoOps : Obligations.UnrecognisedOpcodesAreNoOps := by
  intro x s h p hp
  have hfields : encode p.2 = joinNibbles p.1 x ∧ rowOf p.2 = {} := by
    simp only [List.mem_cons, List.not_mem_nil, or_false] at hp
    rcases hp with rfl | rfl | rfl | rfl | rfl <;> exact ⟨rfl, rfl⟩
  obtain ⟨hbyte, hrow⟩ := hfields
  obtain ⟨t, hexec, hboundary, hticks, hregs, -, hmem⟩ := exec_of_empty_row hrow h
  rw [← hbyte]
  exact ⟨decode_encode p.2, microSteps_of_empty_row hrow, t, hexec, hboundary, hticks, hregs, hmem⟩

/-! ### OUT -/

/-- `AO, OI`: A goes over the bus to the output register (R95). -/
theorem transfer_ao_oi (s : State) :
    transfer { ao := true, oi := true } s =
      { transfer {} s with sig := { ao := true, oi := true }, bus := s.a, out := s.a } :=
  rfl

theorem afterStepFour_out (x : Nibble) (s : State) :
    afterStepFour (.out x) s =
      { transfer {} s with ir := encode (.out x), bus := s.a, out := s.a, microStep := 4 } := by
  have hword : controlWord (rowOf (.out x)) 2 s.c s.z = { ao := true, oi := true } := rfl
  rw [afterStepFour_of_idle_three_four rfl rfl, afterStepTwo, hword, transfer_ao_oi]
  rfl

/-- Settles O52: the one transfer of micro-step 2. -/
theorem outCopiesAccumulator : Obligations.OutCopiesAccumulator := by
  intro x s h
  refine ⟨decode_encode (.out x), fun _ _ => ⟨rfl, rfl, rfl⟩, afterStepFour (.out x) s, exec_of_fetchDone h rfl,
    afterStepFour_boundary _ h, (ticks_six_of_fetchDone h rfl).symm, ?_⟩
  rw [afterStepFour_out]
  exact ⟨rfl, fun _ => rfl⟩

/-! ### The frozen state is a fixed point of the tick -/

theorem ticksWith_eq_self {row : ExecRow} {s : State} (h : tickWith row s = s) (n : Nat) : ticksWith row n s = s := by
  induction n with
  | zero => rfl
  | succ n ih => rw [ticksWith, h, ih]

theorem ticks_eq_self {s : State} (h : tick s = s) (n : Nat) : ticks n s = s := by
  induction n with
  | zero => rfl
  | succ n ih => rw [ticks, h, ih]

/-- The clock stays low, so nothing is captured; and with no signal at micro-step 2 the live outputs, which are all a
halted core derives again, keep their settled values (R109). -/
theorem State.Frozen.tickWith_eq {row : ExecRow} {s : State} (h : s.Frozen) (hword : controlWord row 2 s.c s.z = {}) :
    tickWith row s = s := by
  obtain ⟨hhalt, hclk, hstep, -, hrst, hhold, hprev, hsig, halu, hcarry, hzero⟩ := h
  have hkept : (if s.prev.cu then nextMicroStep s.microStep else s.microStep) = 2 := by
    rw [hprev, hstep]
    rfl
  calc tickWith row s
      = { s with clk := false, microStep := 2, rst := false, sig := Sig.none, prev := Prev.all false } := by
        simp only [tickWith_halted row s hhalt hhold, hkept, hword, drive_off, ← halu, ← hcarry, ← hzero]
        rfl
    _ = s := by
        cases s
        simp_all only

/-- The boards take the row from IR, which in the frozen state holds a HLT byte. -/
theorem State.Frozen.tick_eq {s : State} (h : s.Frozen) : tick s = s := by
  have hword : controlWord (rowOf (decode s.ir)) 2 s.c s.z = {} := by
    obtain ⟨-, -, -, hopcode, -⟩ := h
    rw [controlWord_rowOf_decode, hopcode]
    rfl
  exact h.tickWith_eq hword

/-! ### HLT -/

/-- The state HLT leaves: no driver is out, so the bus keeps its value, and the clock stays low where the falling-edge
tick of micro-step 2 has put it (R96). -/
def afterHlt (x : Nibble) (s : State) : State :=
  { present {} 2 s with ir := encode (.hlt x), halt := true }

section
variable {s : State}

theorem tickWith_hlt_of_fetchDone (x : Nibble) (h : s.FetchDone) :
    tickWith hltRow { s with ir := encode (.hlt x) } = afterHlt x s := by
  obtain ⟨hstep, hclk, hhalt, hhold, hprev⟩ := h
  rw [tickWith_falling hltRow { s with ir := encode (.hlt x) } hhalt hhold (hclk ▸ hprev) hclk, hstep]
  rfl

theorem afterHlt_frozen (x : Nibble) (h : s.FetchDone) : (afterHlt x s).Frozen := by
  obtain ⟨-, -, -, hhold, -⟩ := h
  exact ⟨rfl, rfl, rfl, opcodeOf_encode (.hlt x), rfl, hhold, rfl, rfl, rfl, rfl, rfl⟩

/-- The first tick of the execute phase halts, and the other five change nothing. -/
theorem exec_hlt_of_fetchDone (x : Nibble) (h : s.FetchDone) : exec (.hlt x) s = .next (afterHlt x s) := by
  have hfirst : executePhase hltRow (encode (.hlt x)) s = ticksWith hltRow 5 (afterHlt x s) := by
    rw [executePhase, ticksWith, tickWith_hlt_of_fetchDone x h]
  have hrest : ticksWith hltRow 5 (afterHlt x s) = afterHlt x s :=
    ticksWith_eq_self ((afterHlt_frozen x h).tickWith_eq rfl) 5
  rw [exec_eq_executePhase, ← hrest, ← hfirst]
  rfl

theorem tick_hlt_of_fetchDone (x : Nibble) (h : s.FetchDone) :
    tick { s with ir := encode (.hlt x) } = afterHlt x s := by
  rw [tick_of_ir (i := .hlt x) rfl]
  exact tickWith_hlt_of_fetchDone x h

end

/-- Settles O53: one tick leaves the frozen state, which is a fixed point. -/
theorem hltFreezesTheCore : Obligations.HltFreezesTheCore := fun x s h =>
  ⟨decode_encode (.hlt x), fun _ _ => ⟨rfl, rfl, rfl⟩, afterHlt x s, exec_hlt_of_fetchDone x h, afterHlt_frozen x h,
    (tick_hlt_of_fetchDone x h).symm, rfl, rfl, fun _ => rfl, ticks_eq_self (afterHlt_frozen x h).tick_eq⟩

end Sys2Proof.Machine
end

section
/-! O22: the reset latch through the ticks that follow the reset operation (spec/70_reset_and_hazards.md R110). What the
boards see in a tick depends on the hold-count alone, which those ticks take from 2 to 1 to 0. -/

namespace Sys2Proof.Machine

theorem tick_rstHold (s : State) : (tick s).rstHold = countDown s.rstHold := tickWith_rstHold _ s

/-- The reset branch of the ControlUnit, as far as a whole tick shows it (R63). -/
theorem tick_latch_of_rstHold_ne_zero {s : State} (h : s.rstHold ≠ 0) :
    (tick s).rst = true ∧ (tick s).microStep = 0 ∧ (tick s).halt = false := by
  rw [tick, tickWith_reset _ s h]
  exact ⟨rfl, rfl, rfl⟩

theorem tick_rst_of_rstHold_zero {s : State} (h : s.rstHold = 0) : (tick s).rst = false := by
  simp [tick, tickWith_rst, h]

/-- Settles O22: the hold-count is 2, 1 and 0 before the three ticks, so the first two take the ControlUnit's reset
branch and the third drops the latch. -/
theorem resetLatchHeldExactlyTwoTicks : Obligations.ResetLatchHeldExactlyTwoTicks := by
  intro s
  have hold₁ : (tick (resetOp s)).rstHold = 1 := by
    rw [tick_rstHold, resetOp_rstHold]
    rfl
  have hold₂ : (tick (tick (resetOp s))).rstHold = 0 := by
    rw [tick_rstHold, hold₁]
    rfl
  obtain ⟨rst₁, step₁, halt₁⟩ := tick_latch_of_rstHold_ne_zero (s := resetOp s) (by simp)
  obtain ⟨rst₂, step₂, halt₂⟩ := tick_latch_of_rstHold_ne_zero (s := tick (resetOp s)) (by simp [hold₁])
  exact ⟨rfl, rst₁, step₁, halt₁, rst₂, step₂, halt₂, tick_rst_of_rstHold_zero hold₂⟩

end Sys2Proof.Machine
end

section
/-! Decoding after encoding, and encoding after decoding (spec/30_encoding.md sections 1, 2 and 4). -/

namespace Sys2Proof

/-- The table word of an instruction's byte is that byte, whatever stands above its eighth bit (R51). -/
theorem tableByte_of_byte (b : Byte) (hi : Nat) : tableByte 8 (b.toNat + 256 * hi) = b := by
  have hlow : (b.toNat + 256 * hi) % 2 ^ 8 = b.toNat := by
    have hb : b.toNat < 256 := b.isLt
    omega
  rw [tableByte, hlow, BitVec.ofNat_toNat, BitVec.setWidth_eq]

theorem decodeTableWord_eq (nbits w : Nat) : decodeTableWord nbits w = some (decode (tableByte nbits w)) := rfl

/-- Settles O1: the three readings are all `decode` of the encoded byte. -/
theorem decodeReadsBackEveryEncodedInstruction : Obligations.DecodeReadsBackEveryEncodedInstruction := by
  refine fun i _ => ⟨decode_encode i, fun rest => ?bytes, fun hi => ?word⟩
  case bytes => rw [decodeBytes, decode_encode]
  case word => rw [decodeTableWord_eq, tableByte_of_byte, decode_encode]

/-- Every row of the map keeps the operand nibble (R47, R49). -/
@[simp] theorem operand_decode (b : Byte) : (decode b).operand = operandOf b := by
  unfold decode
  split <;> rfl

@[simp] theorem encode_decode (b : Byte) : encode (decode b) = b := by
  rw [encode, opcode_decode, operand_decode, joinNibbles_split]

/-- Settles O3: encoding and decoding are inverse to each other. -/
theorem everyByteEncodesExactlyOneInstruction : Obligations.EveryByteEncodesExactlyOneInstruction := fun b i =>
  ⟨fun h => h ▸ (decode_encode i).symm, fun h => h ▸ encode_decode b⟩

/-- Settles O4: the words of R57, computed. -/
theorem encodingExamplesDecodeAsWritten : Obligations.EncodingExamplesDecodeAsWritten := by
  unfold Obligations.EncodingExamplesDecodeAsWritten
  decide

end Sys2Proof
end

section
/-! What any one tick does to the signals, the levels, the registers and memory, whatever the state it starts from
(spec/40_microsequencer.md R62 to R66, spec/20_memory.md R31, spec/42_arithmetic.md R85). -/

namespace Sys2Proof.Machine

open Sys2Proof.Spec

/-! ### Single fields of any tick -/

/-- Every board sees the level the Clock left (R24). -/
theorem tickWith_prev (row : ExecRow) (s : State) : (tickWith row s).prev = Prev.all (tickWith row s).clk := by
  by_cases h : s.rstHold = 0 <;>
    simp [tickWith, dataBoards, controlUnit, h, clockBoard, outBoard, bBoard, aBoard, aluBoard, irBoard, memoryBoard,
      marBoard, pcBoard, Prev.all]

theorem tick_prev (s : State) : (tick s).prev = Prev.all (tick s).clk := tickWith_prev _ s

theorem tick_clk_of_not_halt {s : State} (h : s.halt = false) : (tick s).clk = !s.clk := by
  simp [tick, tickWith_clk, h]

/-- The micro-step outside reset: advanced by the falling edge the ControlUnit sees (R61). -/
theorem tick_microStep {s : State} (h : s.rstHold = 0) :
    (tick s).microStep = if falls s.prev.cu (tick s).clk then nextMicroStep s.microStep else s.microStep := by
  rw [tick, tickWith_microStep, if_pos h]

/-- The signals outside reset: the decode table's word (R64). -/
theorem tick_sig {s : State} (h : s.rstHold = 0) :
    (tick s).sig = controlTable (tick s).microStep (opcodeOf s.ir) s.c s.z := by
  rw [tick, tickWith_sig, if_pos h, controlWord_rowOf_decode]

/-- The instruction register captures only with II (R69). -/
theorem tick_ir {s : State} (hhold : s.rstHold = 0) (hii : (tick s).sig.ii = false) : (tick s).ir = s.ir := by
  have hir (row : ExecRow) : (tickWith row s).sig.ii = false → (tickWith row s).ir = s.ir := by
    simp +contextual [tickWith, dataBoards, controlUnit, hhold, clockBoard, irBoard, latch]
  exact hir _ hii

/-- Memory is written only on a rising edge with RI, outside reset at MAR and from the bus unless another board has
changed them in the same tick (R32). -/
theorem tickWith_mem (row : ExecRow) (s : State) :
    (tickWith row s).mem =
      let t := tickWith row s
      if rises s.prev.mem t.clk && t.sig.ri then s.mem.write t.mar (drive t.sig.co (zext8 t.pc) s.bus) else s.mem := by
  by_cases h : s.rstHold = 0 <;>
    simp [tickWith, dataBoards, controlUnit, h, clockBoard, memoryBoard, marBoard, pcBoard]

/-- MAR captures only with MI (R68). -/
theorem tick_mar {s : State} (hhold : s.rstHold = 0) (hmi : (tick s).sig.mi = false) : (tick s).mar = s.mar := by
  have hmar (row : ExecRow) : (tickWith row s).sig.mi = false → (tickWith row s).mar = s.mar := by
    simp +contextual [tickWith, dataBoards, controlUnit, hhold, clockBoard, marBoard, latch]
  exact hmar _ hmi

/-! ### The decode table: which rows assert a signal -/

/-- The exclusions of R66. -/
theorem controlTable_exclusive (k : Fin 5) (op : Nibble) (c z : Bool) :
    (controlTable k op c z).drivers ≤ 1 ∧
      ¬((controlTable k op c z).j = true ∧ (controlTable k op c z).ce = true) ∧
      ¬((controlTable k op c z).ri = true ∧ (controlTable k op c z).ro = true) := by
  revert k op c z
  decide

/-- Only STA writes, in a micro-step in which neither PC nor MAR takes part (R31, R82). -/
theorem controlTable_ri {k : Fin 5} {op : Nibble} {c z : Bool} (h : (controlTable k op c z).ri = true) :
    k = 3 ∧ op = 0x4 ∧ (controlTable k op c z).mi = false ∧ (controlTable k op c z).co = false := by
  revert k op c z
  decide

/-- Only ADD and SUB commit the flags, SUB with subtract-select (R85). -/
theorem controlTable_fi {k : Fin 5} {op : Nibble} {c z : Bool} (h : (controlTable k op c z).fi = true) :
    k = 4 ∧ (op = 0x2 ∧ (controlTable k op c z).su = false ∨ op = 0x3 ∧ (controlTable k op c z).su = true) := by
  revert k op c z
  decide

/-- Only the fetch captures into IR (R52). -/
theorem controlTable_ii {k : Fin 5} (op : Nibble) (c z : Bool) (h : k ≠ 1) : (controlTable k op c z).ii = false := by
  revert k op c z
  decide

/-- A reset tick asserts no signal (R63). -/
theorem tick_sig_of_rstHold_ne_zero {s : State} (h : s.rstHold ≠ 0) : (tick s).sig = Sig.none := by
  rw [tick, tickWith_sig, if_neg h]

/-- Settles O14: the signals are no signal at all or a word of the decode table. -/
theorem atMostOneDriverInAnyTick : Obligations.AtMostOneDriverInAnyTick := by
  refine fun s => ⟨tick_prev s, ?_⟩
  by_cases h : s.rstHold = 0
  · obtain ⟨hone, hjump, hmem⟩ := controlTable_exclusive (tick s).microStep (opcodeOf s.ir) s.c s.z
    have hrst : (tick s).rst = false := tick_rst_of_rstHold_zero h
    rw [tick_sig h, hrst]
    exact ⟨hone, fun hr => absurd hr Bool.false_ne_true, hjump, hmem⟩
  · rw [tick_sig_of_rstHold_ne_zero h]
    exact ⟨by decide, fun _ => rfl, by decide, by decide⟩

/-! ### Committed flags and memory -/

/-- Outside reset C and Z take the ALU's flags on a rising edge with FI, and are kept otherwise (R84). -/
theorem tick_flags {s : State} (h : s.rstHold = 0) :
    (rises s.prev.alu (tick s).clk = true ∧ (tick s).sig.fi = true ∧ (tick s).c = aluCarry (tick s).sig.su s.a s.b ∧
      (tick s).z = aluZero (tick s).sig.su s.a s.b) ∨ (tick s).c = s.c ∧ (tick s).z = s.z := by
  have hc : (tick s).c = latchFlag (rises s.prev.alu (tick s).clk && (tick s).sig.fi) false
      (aluCarry (tick s).sig.su s.a s.b) s.c := tick_rst_of_rstHold_zero h ▸ tickWith_c _ s
  have hz : (tick s).z = latchFlag (rises s.prev.alu (tick s).clk && (tick s).sig.fi) false
      (aluZero (tick s).sig.su s.a s.b) s.z := tick_rst_of_rstHold_zero h ▸ tickWith_z _ s
  cases hcommit : rises s.prev.alu (tick s).clk && (tick s).sig.fi
  case false => exact .inr ⟨by rw [hc, hcommit, latchFlag_idle], by rw [hz, hcommit, latchFlag_idle]⟩
  case true =>
    obtain ⟨hrise, hfi⟩ := Bool.and_eq_true_iff.mp hcommit
    exact .inl ⟨hrise, hfi, by rw [hc, hcommit, latchFlag_commit], by rw [hz, hcommit, latchFlag_commit]⟩

/-- Settles O17: under reset both flags are cleared; outside it a change is a commit, and the decode table says whose. -/
theorem flagsChangeOnlyOnCommitOrClear : Obligations.FlagsChangeOnlyOnCommitOrClear := by
  intro s hchange
  by_cases h : s.rstHold = 0
  case neg =>
    refine .inl ?_
    rw [tick, tickWith_reset _ s h]
    exact ⟨rfl, rfl, rfl⟩
  case pos =>
    obtain ⟨hrise, hfi, hc, hz⟩ | ⟨hc, hz⟩ := tick_flags h
    case inr => exact absurd hchange (by simp [hc, hz])
    case inl =>
      obtain ⟨hprev, hclk⟩ : s.prev.alu = false ∧ (tick s).clk = true := by simpa using hrise
      rw [tick_sig h] at hfi hc hz
      obtain ⟨hstep, hrow⟩ := controlTable_fi hfi
      refine .inr ⟨hprev, hclk, hstep, hrow.imp (fun ⟨hop, hsu⟩ => ?add) fun ⟨hop, hsu⟩ => ?sub⟩
      case add =>
        rw [hsu] at hc hz
        exact ⟨hop, hc, hz⟩
      case sub =>
        rw [hsu] at hc hz
        exact ⟨hop, hc, hz.trans (aluZero_sub s.a s.b)⟩

/-- A tick leaves memory as it was, or is the store tick of STA (R31, R82). -/
theorem tick_mem (s : State) :
    (tick s).mem = s.mem ∨
      s.rstHold = 0 ∧ s.prev.mem = false ∧ (tick s).clk = true ∧ (tick s).microStep = 3 ∧ opcodeOf s.ir = 0x4 ∧
        (tick s).mem = s.mem.write s.mar s.bus := by
  have hmem : (tick s).mem =
      if rises s.prev.mem (tick s).clk && (tick s).sig.ri then
        s.mem.write (tick s).mar (drive (tick s).sig.co (zext8 (tick s).pc) s.bus) else s.mem := tickWith_mem _ s
  by_cases hwrite : (rises s.prev.mem (tick s).clk && (tick s).sig.ri) = true
  case neg => exact .inl (hmem.trans (if_neg hwrite))
  case pos =>
    obtain ⟨⟨hprev, hclk⟩, hri⟩ : (s.prev.mem = false ∧ (tick s).clk = true) ∧ (tick s).sig.ri = true := by
      simpa using hwrite
    have hhold : s.rstHold = 0 := by
      by_contra h
      rw [tick_sig_of_rstHold_ne_zero h] at hri
      exact Bool.false_ne_true hri
    rw [tick_sig hhold] at hri
    obtain ⟨hstep, hop, hmi, hco⟩ := controlTable_ri hri
    rw [← tick_sig hhold] at hmi hco
    refine .inr ⟨hhold, hprev, hclk, hstep, hop, ?_⟩
    rw [hmem, if_pos hwrite, tick_mar hhold hmi, hco, drive_off]

/-- Settles O18: the one write of `tick_mem`, seen from a cell. -/
theorem memoryChangesOnlyInStoreTick : Obligations.MemoryChangesOnlyInStoreTick := by
  intro s x hchange
  obtain hmem | ⟨hhold, hprev, hclk, hstep, hop, hmem⟩ := tick_mem s
  · exact absurd (by rw [hmem]) hchange
  · have hx : x = s.mar := by
      by_contra hne
      exact hchange (by rw [hmem, Memory.read_write_other _ _ _ _ (Ne.symm hne)])
    exact ⟨hhold, hprev, hclk, hstep, hop, hx, by rw [hmem, hx, Memory.read_write_same]⟩

/-! ### The halted core -/

/-- One tick of a halted core keeps everything an instruction rule speaks of (R109). -/
theorem tick_of_halted {s : State} (hhalt : s.halt = true) (hhold : s.rstHold = 0) :
    (tick s).clk = false ∧ (tick s).regs = s.regs ∧ (tick s).mem = s.mem ∧ (tick s).rstHold = 0 := by
  rw [tick, tickWith_halted _ s hhalt hhold]
  exact ⟨rfl, rfl, rfl, hhold⟩

theorem tick_halt_of_halted {s : State} (hhalt : s.halt = true) (hhold : s.rstHold = 0) : (tick s).halt = true :=
  (tick_halt_iff s).mpr ⟨hhold, .inl hhalt⟩

/-- Settles O20, by induction on the number of ticks. -/
theorem haltedCoreStaysHalted : Obligations.HaltedCoreStaysHalted := by
  intro n
  induction n with
  | zero =>
    intro s hhalt hhold
    obtain ⟨hclk, hregs, hmem, -⟩ := tick_of_halted hhalt hhold
    exact ⟨tick_halt_of_halted hhalt hhold, hclk, hregs, fun x => congrArg (Memory.read · x) hmem⟩
  | succ n ih =>
    intro s hhalt hhold
    obtain ⟨-, hregs, hmem, hhold'⟩ := tick_of_halted hhalt hhold
    have := ih (tick s) (tick_halt_of_halted hhalt hhold) hhold'
    rwa [hregs, hmem] at this

end Sys2Proof.Machine
end

section
/-! The two kinds of tick of a running core (spec/40_microsequencer.md R71, R72): where the next tick leads in the
micro-program, what a falling-edge tick leaves alone, and what a rising-edge tick transfers. -/

namespace Sys2Proof.Machine

open Sys2Proof.Spec

/-! ### Running on -/

/-- A tick outside reset leaves the core halted or running. -/
theorem tick_running_of_not_halt {s : State} (hhold : s.rstHold = 0) (hgo : (tick s).halt = false) : (tick s).Running :=
  ⟨hgo, by rw [tick_rstHold, hhold]; rfl, tick_prev s⟩

/-- A running core's tick begins a micro-step exactly where the clock was high (R61). -/
theorem State.Running.tick_microStep {s : State} (hrun : s.Running) :
    (tick s).microStep = if s.clk then nextMicroStep s.microStep else s.microStep := by
  obtain ⟨hhalt, hhold, hprev⟩ := hrun
  have hcu : s.prev.cu = s.clk := congrArg Prev.cu hprev
  rw [Machine.tick_microStep hhold, tick_clk_of_not_halt hhalt, hcu]
  cases s.clk <;> rfl

theorem State.Running.tick_clk {s : State} (hrun : s.Running) : (tick s).clk = !s.clk := by
  obtain ⟨hhalt, -, -⟩ := hrun
  exact tick_clk_of_not_halt hhalt

theorem State.Running.tick_halt_iff {s : State} (hrun : s.Running) :
    (tick s).halt = true ↔ (tick s).microStep = 2 ∧ opcodeOf s.ir = 0xF := by
  obtain ⟨hhalt, hhold, -⟩ := hrun
  simp [Machine.tick_halt_iff, hhalt, hhold]

/-- While the clock is high the next tick has no rising edge: nothing captures, writes or commits (R71). -/
theorem State.Running.tick_falling_keeps {s : State} (hrun : s.Running) (hclk : s.clk = true) :
    (tick s).regs = { s.regs with halt := (tick s).halt } ∧ (tick s).mem = s.mem := by
  obtain ⟨hhalt, hhold, hprev⟩ := hrun
  rw [tick, tickWith_falling _ s hhalt hhold (hclk ▸ hprev) hclk]
  exact ⟨rfl, rfl⟩

theorem State.Running.tick_falling_ir {s : State} (hrun : s.Running) (hclk : s.clk = true) : (tick s).ir = s.ir :=
  congrArg Regs.ir (hrun.tick_falling_keeps hclk).1

/-- Settles O15: the rising-edge tick is in the same micro-step, with the same opcode and flags, so with the same word
and no halt. -/
theorem fallingEdgeTickCapturesNothing : Obligations.FallingEdgeTickCapturesNothing := by
  intro s hrun hclk t
  have ⟨_, hhold, _⟩ := hrun
  obtain ⟨hregs, hmem⟩ := hrun.tick_falling_keeps hclk
  have hlow : t.clk = false := by rw [hrun.tick_clk, hclk]; rfl
  have hstep : t.microStep = nextMicroStep s.microStep := by rw [hrun.tick_microStep, hclk, if_pos rfl]
  have hir : t.ir = s.ir := congrArg Regs.ir hregs
  have hc : t.c = s.c := congrArg Regs.c hregs
  have hz : t.z = s.z := congrArg Regs.z hregs
  refine ⟨hlow, hstep, hregs, fun x => congrArg (Memory.read · x) hmem, hrun.tick_halt_iff, fun hgo => ?_⟩
  have hrun' : t.Running := tick_running_of_not_halt hhold hgo
  have ⟨_, hhold', _⟩ := hrun'
  have hsame : (tick t).microStep = t.microStep := by rw [hrun'.tick_microStep, hlow, if_neg Bool.false_ne_true]
  refine ⟨by rw [hrun'.tick_clk, hlow]; rfl, hsame, ?word, ?noHalt⟩
  case word => rw [tick_sig hhold', tick_sig hhold, hsame, hir, hc, hz]
  case noHalt =>
    rw [← Bool.not_eq_true, hrun'.tick_halt_iff, hsame, hir, ← hrun.tick_halt_iff]
    exact ne_true_of_eq_false hgo

/-! ### The rising-edge tick as one transfer -/

/-- In the fetch the driver comes before every board that captures, so its value reaches them whatever the bus held
(R58, R73). -/
theorem tickWith_rising_fetch (row : ExecRow) {s : State} (hrun : s.Running) (hclk : s.clk = false)
    (hfetch : s.microStep = 0 ∨ s.microStep = 1) :
    tickWith row s =
      { transfer (controlWord row s.microStep s.c s.z) s with clk := true, prev := Prev.all true } := by
  obtain ⟨hhalt, hhold, hprev⟩ := hrun
  rw [tickWith_rising row s hhalt hhold (hclk ▸ hprev) hclk]
  rcases hfetch with h | h <;> simp [h, controlWord, transfer, presented, pcEdge, hhalt, hhold]

/-- A falling-edge tick that does not halt has not begun micro-step 2 of a HLT. -/
theorem State.Running.not_halting_word {r : State} (hr : r.Running) (hclk : r.clk = true)
    (hgo : (tick r).halt = false) :
    (decide ((tick r).microStep = 2) && (rowOf (decode (tick r).ir)).halts) = false := by
  have hsilent := mt hr.tick_halt_iff.mpr (ne_true_of_eq_false hgo)
  rw [← hr.tick_falling_ir hclk] at hsilent
  simpa [rowOf_decode_halts] using hsilent

/-- A falling-edge tick that does not halt leads halfway through the next micro-step. -/
theorem State.Running.tick_falling {r : State} (hr : r.Running) (hclk : r.clk = true) (hgo : (tick r).halt = false) :
    tick r = present (controlTable (tick r).microStep (opcodeOf r.ir) r.c r.z) (tick r).microStep r := by
  have hstep : nextMicroStep r.microStep = (tick r).microStep := by rw [hr.tick_microStep, hclk, if_pos rfl]
  have hsilent := hr.not_halting_word hclk hgo
  rw [hr.tick_falling_ir hclk] at hsilent
  exact tickWith_eq_present _ hr hclk hstep (controlWord_rowOf_decode ..) (controlTable_exclusive ..).1 hsilent

/-- Halfway through a micro-step, or in micro-step 0 right after a reset, the rising-edge tick is the transfer of the
decode table's word (R72). -/
theorem State.Running.tick_rising {s : State} (hrun : s.Running) (hclk : s.clk = false)
    (hstart : (∃ r : State, r.Running ∧ r.clk = true ∧ tick r = s) ∨ s.microStep = 0) :
    tick s =
      { transfer (controlTable s.microStep (opcodeOf s.ir) s.c s.z) s with clk := true, prev := Prev.all true } := by
  have hword := controlWord_rowOf_decode s.ir s.microStep s.c s.z
  rcases hstart with ⟨r, hr, hrclk, rfl⟩ | hzero
  case inl =>
    have ⟨hgo, _, _⟩ := hrun
    have hhalfway := hr.tick_falling hrclk hgo
    obtain ⟨hregs, -⟩ := hr.tick_falling_keeps hrclk
    have hc : (tick r).c = r.c := congrArg Regs.c hregs
    have hz : (tick r).z = r.z := congrArg Regs.z hregs
    have hbus : (tick r).bus = presented (controlTable (tick r).microStep (opcodeOf (tick r).ir) (tick r).c (tick r).z)
        (tick r) := by
      rw [hr.tick_falling_ir hrclk, hc, hz]
      generalize controlTable (tick r).microStep (opcodeOf r.ir) r.c r.z = g at hhalfway ⊢
      rw [hhalfway]
      exact (presented_present g _ r).symm
    exact tickWith_rising_transfers _ hrun hclk hword (hword ▸ controlWord_isTransfer ..) hbus
      (hr.not_halting_word hrclk hgo)
  case inr => rw [← hword]; exact tickWith_rising_fetch _ hrun hclk (.inl hzero)

/-- Settles O16: the tick is the transfer of the word of the micro-step, whose clauses these are. -/
theorem risingTickIsSimultaneousTransfer : Obligations.RisingTickIsSimultaneousTransfer := by
  intro s hrun hclk hstart t g v
  have ht : t = { transfer (controlTable s.microStep (opcodeOf s.ir) s.c s.z) s with
      clk := true, prev := Prev.all true } := hrun.tick_rising hclk hstart
  have hg : g = controlTable s.microStep (opcodeOf s.ir) s.c s.z := congrArg State.sig ht
  rw [← hg] at ht
  refine ⟨hg, congrArg State.mar ht, congrArg State.ir ht, congrArg State.a ht, congrArg State.b ht,
    congrArg State.out ht, fun x => ?cell, congrArg State.pc ht, congrArg State.c ht, ?zero⟩
  case cell =>
    have hmem : t.mem = if g.ri then s.mem.write s.mar v else s.mem := congrArg State.mem ht
    rw [hmem]
    by_cases hri : g.ri = true <;> simp [hri, Memory.read_write, eq_comm]
  case zero =>
    have hz : t.z = if g.fi then aluZero g.su s.a s.b else s.z := congrArg State.z ht
    rw [hz]
    cases g.su
    · rfl
    · rw [aluZero_sub]; rfl

end Sys2Proof.Machine
end

section
/-! The host's reset (spec/70_reset_and_hazards.md R111, R112, spec/10_state.md R28): its two ticks, the whole state it
leaves, and that doing it again changes nothing. -/

namespace Sys2Proof.Machine

/-! ### The two ticks -/

/-- What a tick with a reset pending clears and keeps (R23, R63). -/
theorem tick_pending_reset {s : State} (h : s.rstHold ≠ 0) :
    (tick s).regs = { a := 0, b := 0, out := 0, ir := 0, mar := 0, pc := 0, c := false, z := false, halt := false } ∧
      (tick s).rst = true ∧ (tick s).microStep = 0 ∧ (tick s).sig = {} ∧ (tick s).bus = s.bus ∧
      (tick s).mem = s.mem := by
  rw [tick, tickWith_reset _ s h]
  exact ⟨rfl, rfl, rfl, rfl, rfl, rfl⟩

theorem tick_resetOp_rstHold (s : State) : (tick (resetOp s)).rstHold = 1 := by
  rw [tick_rstHold, resetOp_rstHold]
  rfl

/-- Settles O23: the hold-count is 2 and 1 before the two ticks, so both are ticks with a reset pending. -/
theorem hostResetClearsRegistersKeepsMemory : Obligations.HostResetClearsRegistersKeepsMemory := by
  intro s t ht
  obtain ⟨hregs₁, hrst₁, hstep₁, hsig₁, hbus₁, hmem₁⟩ := tick_pending_reset (s := resetOp s) (by simp)
  obtain ⟨hregs₂, hrst₂, hstep₂, hsig₂, hbus₂, hmem₂⟩ :=
    tick_pending_reset (s := tick (resetOp s)) (by simp [tick_resetOp_rstHold])
  rcases ht with rfl | rfl
  case inl => exact ⟨hregs₁, hrst₁, hstep₁, hsig₁, hbus₁, fun x => congrArg (Memory.read · x) hmem₁⟩
  case inr =>
    exact ⟨hregs₂, hrst₂, hstep₂, hsig₂, hbus₂.trans hbus₁, fun x => congrArg (Memory.read · x) (hmem₂.trans hmem₁)⟩

/-- Settles O24: the second tick finds A and B cleared, so the ALU's outputs settle on the sum 0; the clock toggles
twice, or is forced low by the halt latch in the first tick alone. -/
theorem hostResetGivesTheTableState : Obligations.HostResetGivesTheTableState := by
  intro s
  have hclk : (!(if s.halt then false else !s.clk)) = if s.halt then true else s.clk := by
    cases s.halt <;> simp
  rw [← hclk, hostReset, tick, tickWith_reset _ _ (by simp [tick_resetOp_rstHold]), tick,
    tickWith_reset _ (resetOp s) (by simp)]
  simp only [resetOp_rstHold]
  rfl

/-! ### The state after reset -/

theorem hostReset_running (s : State) : (hostReset s).Running := by
  rw [hostResetGivesTheTableState]
  exact ⟨rfl, rfl, rfl⟩

@[simp] theorem hostReset_mem (s : State) : (hostReset s).mem = s.mem := by rw [hostResetGivesTheTableState]

@[simp] theorem hostReset_microStep (s : State) : (hostReset s).microStep = 0 := by rw [hostResetGivesTheTableState]

/-- A memory in canonical form lists no cell unless some cell differs from MEM_INIT. -/
theorem Memory.eq_nil_of_read_memInit {m : Memory} (hwf : m.wf = true) (h : ∀ x : Nibble, m.read x = Config.memInit) :
    m = [] := by
  rcases m with _ | ⟨⟨k, v⟩, rest⟩
  case nil => rfl
  case cons =>
    simp only [Memory.wf, Memory.wfFrom, Bool.and_eq_true, decide_eq_true_eq] at hwf
    obtain ⟨⟨⟨-, hk⟩, hv⟩, -⟩ := hwf
    have hread : Memory.read ((k, v) :: rest) (BitVec.ofNat 4 k) = v := by
      simp [Memory.read, Memory.lookup, Nat.mod_eq_of_lt hk]
    exact absurd (hread.symm.trans (h _)) hv

/-- Settles O25: the table state, with the named values for what reset leaves in place. -/
theorem modelResetIsHostResetOfNamedPowerOn : Obligations.ModelResetIsHostResetOfNamedPowerOn := by
  intro s hclk hhalt hbus hwf hcells
  rw [hostResetGivesTheTableState, hclk, hhalt, hbus, Memory.eq_nil_of_read_memInit hwf hcells]
  rfl

/-- Settles O26: the clock level and the halt latch, on which the table depends, are those a reset leaves. -/
theorem hostResetIsIdempotent : Obligations.HostResetIsIdempotent := by
  intro s
  rw [hostResetGivesTheTableState (hostReset s), hostResetGivesTheTableState s]
  rfl

end Sys2Proof.Machine
end

section
/-! The invariant of the core: the base case, and that one tick keeps it (spec/10_state.md R20, R23, R24,
spec/40_microsequencer.md R66). The clauses about levels and signals hold after any tick; the others are below. -/

namespace Sys2Proof.Machine

open Sys2Proof.Spec

theorem hostReset_inv {s : State} (h : s.mem.wf = true) : (hostReset s).Inv := by
  rw [hostResetGivesTheTableState]
  exact
    { memCanonical := h
      levelsSeen := rfl
      oneDriver := Nat.zero_le 1
      noLoadWithCount := by simp
      noWriteWithRead := by simp
      haltedInHlt := by simp
      haltedLow := by simp
      clearedInReset := fun _ => ⟨rfl, rfl, rfl, rfl, rfl, rfl, rfl, rfl⟩ }

/-- Settles O58: `State.reset` is itself what a reset leaves of the named power-on. -/
theorem resetEstablishesInvariant : Obligations.ResetEstablishesInvariant := by
  have hfix : hostReset State.reset = State.reset :=
    modelResetIsHostResetOfNamedPowerOn State.reset rfl rfl rfl rfl fun _ => rfl
  exact ⟨hfix ▸ hostReset_inv Memory.reset_wf, fun _ => hostReset_inv⟩

section
variable {s : State}

theorem tick_mem_wf (h : s.mem.wf = true) : (tick s).mem.wf = true := by
  obtain hmem | ⟨-, -, -, -, -, hmem⟩ := tick_mem s <;> rw [hmem]
  · exact h
  · exact Memory.write_wf _ _ h

/-- IR is captured in micro-step 1 alone. -/
theorem tick_ir_of_microStep_ne_one (hhold : s.rstHold = 0) (h : (tick s).microStep ≠ 1) : (tick s).ir = s.ir :=
  tick_ir hhold (tick_sig hhold ▸ controlTable_ii _ _ _ h)

/-- With the clock low and seen low, no tick of a halted core advances the micro-step. -/
theorem tick_microStep_of_halted (hhalt : s.halt = true) (hhold : s.rstHold = 0) (hprev : s.prev = Prev.all s.clk)
    (hclk : s.clk = false) : (tick s).microStep = s.microStep := by
  have hcu : s.prev.cu = false := hclk ▸ congrArg Prev.cu hprev
  rw [tick_microStep hhold, hcu, (tick_of_halted hhalt hhold).1]
  rfl

/-- The latch is set exactly in micro-step 2 of opcode 0xF: where it is set by this tick the opcode is read from IR,
which that tick does not capture; where it was set before, neither the micro-step nor IR changes. -/
theorem tick_halt_iff_in_hlt (h : s.Inv) :
    (tick s).halt = true ↔ (tick s).microStep = 2 ∧ opcodeOf (tick s).ir = 0xF := by
  by_cases hhold : s.rstHold = 0
  case neg =>
    obtain ⟨-, hstep, hhalt⟩ := tick_latch_of_rstHold_ne_zero hhold
    simp [hstep, hhalt]
  case pos =>
    rw [tick_halt_iff]
    constructor
    · rintro ⟨-, hhalt | ⟨hstep, hop⟩⟩
      · obtain ⟨htwo, hop⟩ := h.haltedInHlt.mp hhalt
        have hstep : (tick s).microStep = 2 :=
          (tick_microStep_of_halted hhalt hhold h.levelsSeen (h.haltedLow hhalt)).trans htwo
        exact ⟨hstep, by rwa [tick_ir_of_microStep_ne_one hhold (by simp [hstep])]⟩
      · exact ⟨hstep, by rwa [tick_ir_of_microStep_ne_one hhold (by simp [hstep])]⟩
    · rintro ⟨hstep, hop⟩
      rw [tick_ir_of_microStep_ne_one hhold (by simp [hstep])] at hop
      exact ⟨hhold, .inr ⟨hstep, hop⟩⟩

/-- The latch is set in a falling-edge tick: a rising-edge tick of micro-step 2 of opcode 0xF would start halted. -/
theorem tick_low_of_halt (h : s.Inv) (hhalt' : (tick s).halt = true) : (tick s).clk = false := by
  by_contra hhigh
  have hgo : s.halt = false := by
    rw [← Bool.not_eq_true]
    exact fun hhalt => hhigh (tick_clk_of_halt hhalt)
  obtain ⟨hhold, hset⟩ := (tick_halt_iff s).mp hhalt'
  obtain ⟨hstep, hop⟩ := hset.resolve_left (ne_true_of_eq_false hgo)
  have hrun : s.Running := ⟨hgo, hhold, h.levelsSeen⟩
  have hclk : s.clk = false := by
    rw [hrun.tick_clk] at hhigh
    simpa using hhigh
  rw [hrun.tick_microStep, hclk, if_neg Bool.false_ne_true] at hstep
  exact ne_true_of_eq_false hgo (h.haltedInHlt.mpr ⟨hstep, hop⟩)

theorem tick_cleared_of_rst (h : (tick s).rst = true) :
    (tick s).a = 0 ∧ (tick s).b = 0 ∧ (tick s).out = 0 ∧ (tick s).ir = 0 ∧ (tick s).mar = 0 ∧ (tick s).pc = 0 ∧
      (tick s).c = false ∧ (tick s).z = false := by
  have hhold : s.rstHold ≠ 0 := fun hzero => Bool.false_ne_true (tick_rst_of_rstHold_zero hzero ▸ h)
  rw [tick, tickWith_reset _ s hhold]
  exact ⟨rfl, rfl, rfl, rfl, rfl, rfl, rfl, rfl⟩

end

/-- Settles O59, clause by clause. -/
theorem tickKeepsInvariant : Obligations.TickKeepsInvariant := by
  intro s h
  obtain ⟨hprev, hone, -, hjump, hmem⟩ := atMostOneDriverInAnyTick s
  exact
    { memCanonical := tick_mem_wf h.memCanonical
      levelsSeen := hprev
      oneDriver := hone
      noLoadWithCount := hjump
      noWriteWithRead := hmem
      haltedInHlt := tick_halt_iff_in_hlt h
      haltedLow := tick_low_of_halt h
      clearedInReset := tick_cleared_of_rst }

theorem ticks_inv (n : Nat) {s : State} (h : s.Inv) : (ticks n s).Inv := by
  induction n generalizing s with
  | zero => exact h
  | succ n ih => exact ih (tickKeepsInvariant s h)

end Sys2Proof.Machine
end

section
/-! The fetch phase (spec/40_microsequencer.md R71, R73): from each of the four places where it can be picked up it ends
in one and the same state, and the step goes on from there. -/

namespace Sys2Proof.Machine

open Sys2Proof.Spec

/-! ### The state at the end of a fetch -/

/-- The end of a fetch from the address `p`: of `s` it reads A, B, OUT, PC, C, Z and memory, and nothing else. -/
def afterFetch (p : Nibble) (s : State) : State where
  clk := true
  bus := s.mem.read p
  a := s.a
  b := s.b
  out := s.out
  ir := s.mem.read p
  mar := p
  pc := s.pc + 1
  mem := s.mem
  aluResult := aluValue false s.a s.b
  pendC := aluCarry false s.a s.b
  pendZ := aluZero false s.a s.b
  c := s.c
  z := s.z
  microStep := 1
  halt := false
  rst := false
  rstHold := 0
  sig := { ro := true, ii := true, ce := true }
  prev := Prev.all true

theorem afterFetch_fetchDone (p : Nibble) (s : State) : (afterFetch p s).FetchDone := ⟨rfl, rfl, rfl, rfl, rfl⟩

theorem afterFetch_ir (p : Nibble) (s : State) : (afterFetch p s).ir = s.mem.read p := rfl

/-- Micro-step 1: the addressed cell goes to IR, and PC counts (R73). -/
theorem transfer_ro_ii_ce {s : State} (hrun : s.Running) :
    { transfer { ro := true, ii := true, ce := true } s with clk := true, prev := Prev.all true, microStep := 1 } =
      afterFetch s.mar s := by
  obtain ⟨hhalt, hhold, -⟩ := hrun
  rw [transfer, hhalt, hhold]
  rfl

/-- After micro-step 0: PC is in MAR (R73). -/
def afterStepZero (s : State) : State :=
  { transfer { co := true, mi := true } s with clk := true, prev := Prev.all true, microStep := 0 }

theorem afterStepZero_running {s : State} (hrun : s.Running) : (afterStepZero s).Running := by
  obtain ⟨hhalt, hhold, -⟩ := hrun
  exact ⟨hhalt, hhold, rfl⟩

/-- Micro-step 0 leaves alone whatever the end of the fetch reads. -/
theorem afterFetch_afterStepZero (s : State) :
    afterFetch (afterStepZero s).mar (afterStepZero s) = afterFetch s.pc s := by
  have hmar : (afterStepZero s).mar = s.pc := lowNibble_zext8 s.pc
  rw [hmar]
  rfl

/-! ### The four starts -/

section
variable {s : State}

/-- Micro-step 0 with the clock high: PC is in MAR already. -/
theorem ticks_two_of_stepZero (hrun : s.Running) (hclk : s.clk = true) (hstep : s.microStep = 0) :
    ticks 2 s = afterFetch s.mar s := by
  have ⟨_, _, hprev⟩ := hrun
  rw [ticks_two (k := 1) (g := { ro := true, ii := true, ce := true }) (decode s.ir) hrun hclk (encode_decode s.ir).symm
    (by rw [hstep]; rfl) rfl rfl, ← transfer_ro_ii_ce hrun, transfer, hprev, hclk]

/-- From a point at which micro-step 0 has been completed. -/
theorem ticks_two_afterStepZero (hrun : s.Running) : ticks 2 (afterStepZero s) = afterFetch s.pc s := by
  rw [ticks_two_of_stepZero (afterStepZero_running hrun) rfl rfl, afterFetch_afterStepZero]

theorem ticks_four_of_boundary (h : s.Boundary) : ticks 4 s = afterFetch s.pc s := by
  obtain ⟨hstep, hclk, hrun⟩ := h
  have ⟨_, _, hprev⟩ := hrun
  have hfirst : ticks 2 s = afterStepZero s := by
    rw [ticks_two (k := 0) (g := { co := true, mi := true }) (decode s.ir) hrun hclk (encode_decode s.ir).symm
      (by rw [hstep]; rfl) rfl rfl, afterStepZero, transfer, hprev, hclk]
  rw [ticks_add 2 2, hfirst, ticks_two_afterStepZero hrun]

/-- Micro-step 0 with the clock low, as after a reset: the driver is not yet out, and no other board drives. -/
theorem ticks_three_of_stepZero (hrun : s.Running) (hclk : s.clk = false) (hstep : s.microStep = 0) :
    ticks 3 s = afterFetch s.pc s := by
  have hfirst : ticks 1 s = afterStepZero s := by
    change tick s = _
    rw [tick, tickWith_rising_fetch _ hrun hclk (.inl hstep), afterStepZero, transfer, transfer, hstep]
    rfl
  rw [ticks_add 1 2, hfirst, ticks_two_afterStepZero hrun]

theorem tick_of_stepOne (hrun : s.Running) (hclk : s.clk = false) (hstep : s.microStep = 1) :
    tick s = afterFetch s.mar s := by
  rw [tick, tickWith_rising_fetch _ hrun hclk (.inr hstep), ← transfer_ro_ii_ce hrun]
  simp [transfer, controlWord, hstep]

/-- Where a fetch comes next, by the count of its ticks. -/
theorem fetchTicks_cases {n : Nat} (h : s.fetchTicks = some n) :
    s.Boundary ∧ n = 4 ∨ s.Running ∧ s.microStep = 0 ∧ s.clk = true ∧ n = 2 ∨
      s.Running ∧ s.microStep = 0 ∧ s.clk = false ∧ n = 3 ∨ s.Running ∧ s.microStep = 1 ∧ s.clk = false ∧ n = 1 := by
  unfold State.fetchTicks at h
  split at h
  case isTrue => cases h
  case isFalse hidle =>
    have hrun : s.Running := by simpa [State.Running, and_assoc] using hidle
    split_ifs at h with hboundary hzero hclk hone hclk <;> cases h
    · obtain ⟨hstep, hclk⟩ : s.microStep = 4 ∧ s.clk = true := by simpa [State.atBoundary] using hboundary
      exact .inl ⟨⟨hstep, hclk, hrun⟩, rfl⟩
    · exact .inr (.inl ⟨hrun, hzero, hclk, rfl⟩)
    · exact .inr (.inr (.inl ⟨hrun, hzero, eq_false_of_ne_true hclk, rfl⟩))
    · exact .inr (.inr (.inr ⟨hrun, hone, eq_false_of_ne_true hclk, rfl⟩))

/-- From every start the fetch ends in the same state, by its address. -/
theorem ticks_of_fetchTicks {n : Nat} (h : s.fetchTicks = some n) : ticks n s = afterFetch s.fetchAddr s := by
  obtain ⟨hb, rfl⟩ | ⟨hrun, hstep, hclk, rfl⟩ | ⟨hrun, hstep, hclk, rfl⟩ | ⟨hrun, hstep, hclk, rfl⟩ := fetchTicks_cases h
  · rw [hb.fetchAddr]
    exact ticks_four_of_boundary hb
  · have haddr : s.fetchAddr = s.mar := by simp [State.fetchAddr, State.atBoundary, hstep, hclk]
    rw [haddr]
    exact ticks_two_of_stepZero hrun hclk hstep
  · have haddr : s.fetchAddr = s.pc := by simp [State.fetchAddr, hstep, hclk]
    rw [haddr]
    exact ticks_three_of_stepZero hrun hclk hstep
  · have haddr : s.fetchAddr = s.mar := by simp [State.fetchAddr, State.atBoundary, hstep, hclk]
    rw [haddr]
    exact tick_of_stepOne hrun hclk hstep

theorem step_of_fetchTicks {n : Nat} (h : s.fetchTicks = some n) :
    step s = exec (decode (s.mem.read s.fetchAddr)) (afterFetch s.fetchAddr s) := by
  rw [step, h]
  change exec (decode (ticks n s).ir) (ticks n s) = _
  rw [ticks_of_fetchTicks h]
  rfl

theorem step_of_fetchTicks_none (h : s.fetchTicks = none) : step s = .next (ticksToStop stopBound s) := by
  rw [step, h]

theorem step_of_boundary (h : s.Boundary) : step s = exec (decode (s.mem.read s.pc)) (afterFetch s.pc s) := by
  rw [step_of_fetchTicks h.fetchTicks, h.fetchAddr]

end

/-- Settles O33: the fields of the one state every fetch ends in. -/
theorem stepFetchesThenRunsDecodedInstruction : Obligations.StepFetchesThenRunsDecodedInstruction := by
  intro s n h f
  have hf : f = afterFetch s.fetchAddr s := ticks_of_fetchTicks h
  have hgo : s.halt = false := by
    obtain ⟨⟨-, -, hrun⟩, -⟩ | ⟨hrun, -⟩ | ⟨hrun, -⟩ | ⟨hrun, -⟩ := fetchTicks_cases h <;> exact hrun.1
  rw [hf, State.regs, State.regs, hgo]
  exact ⟨afterFetch_fetchDone _ s, rfl, fun _ => rfl, step_of_fetchTicks h⟩

/-- Settles O31: the fetch reads memory in its rising-edge tick, after the load. -/
theorem loadBetweenTicksReachesTheFetch : Obligations.LoadBetweenTicksReachesTheFetch := by
  intro bytes s hrun hclk hstep
  rw [tick_of_stepOne (s := (loadMemory bytes s).1) hrun hclk hstep]
  exact loadMemory_mem_read bytes s s.mar

/-- Settles O57: the end of the fetch is the same state for both. -/
theorem stepDependsOnProgramStateAlone : Obligations.StepDependsOnProgramStateAlone := by
  intro s s' h h' ha hb hout hpc hc hz hmem
  have hfetch : afterFetch s.pc s = afterFetch s'.pc s' := by
    simp only [afterFetch, ha, hb, hout, hpc, hc, hz, hmem]
  rw [step_of_boundary h, step_of_boundary h', hfetch, hpc, hmem]

/-! ### The fetch after a reset -/

/-- Two or three ticks by the clock phase (R113). -/
theorem hostReset_fetchTicks (s : State) :
    (hostReset s).fetchTicks = some (if (hostReset s).clk then 2 else 3) := by
  obtain ⟨hhalt, hhold, hprev⟩ := hostReset_running s
  simp [State.fetchTicks, State.atBoundary, hhalt, hhold, hprev]

/-- PC and MAR are both 0, whichever of them the fetch reads. -/
theorem hostReset_fetchAddr (s : State) : (hostReset s).fetchAddr = 0 := by
  rw [hostResetGivesTheTableState, State.fetchAddr]
  exact ite_self _

/-- The fetch ends in a state in which memory alone is left of the state before the reset. -/
theorem afterFetch_hostReset (s : State) :
    afterFetch 0 (hostReset s) = afterFetch 0 { State.reset with mem := s.mem } := by
  rw [hostResetGivesTheTableState]
  rfl

theorem step_hostReset (s : State) :
    step (hostReset s) = exec (decode (s.mem.read 0)) (afterFetch 0 { State.reset with mem := s.mem }) := by
  rw [step_of_fetchTicks (hostReset_fetchTicks s), hostReset_fetchAddr, afterFetch_hostReset, hostReset_mem]

/-- Settles O29: the end of the first fetch, written out from `State.reset`. -/
theorem firstInstructionAfterResetIsCellZero : Obligations.FirstInstructionAfterResetIsCellZero := fun s =>
  ⟨afterFetch 0 { State.reset with mem := s.mem }, afterFetch_fetchDone 0 _, rfl, rfl, rfl, rfl, rfl, rfl, rfl, rfl, rfl,
    step_hostReset s⟩

/-- Settles O27: the step after a reset is a function of memory. -/
theorem firstInstructionAfterResetDependsOnMemoryAlone : Obligations.FirstInstructionAfterResetDependsOnMemoryAlone := by
  intro s s' hmem
  rw [step_hostReset, step_hostReset, hmem]

/-! ### The placed word -/

theorem toBoundary_boundary (s : State) : s.toBoundary.Boundary := ⟨rfl, rfl, rfl, rfl, rfl⟩

/-- Where a fetch comes next, a byte placed in the cell it reads is the next instruction run. -/
theorem step_of_placed {t : State} {n : Nat} (h : t.fetchTicks = some n) (b : Byte) :
    ∃ f : State, f.FetchDone ∧ f.ir = b ∧ f.a = t.a ∧ f.b = t.b ∧ f.c = t.c ∧ f.z = t.z ∧
      step { t with mem := t.mem.write t.fetchAddr b } = exec (decode b) f := by
  have hread : (t.mem.write t.fetchAddr b).read t.fetchAddr = b := Memory.read_write_same ..
  refine ⟨afterFetch t.fetchAddr { t with mem := t.mem.write t.fetchAddr b }, afterFetch_fetchDone _ _, hread, rfl, rfl,
    rfl, rfl, ?_⟩
  have hstep := step_of_fetchTicks (s := { t with mem := t.mem.write t.fetchAddr b }) h
  change _ = exec (decode ((t.mem.write t.fetchAddr b).read t.fetchAddr)) _ at hstep
  rwa [hread] at hstep

/-- The state in which `withFetchWord` places the word: a fetch comes next, and A, B, C and Z are those of `s`. -/
theorem withFetchWord_eq (s : State) (nbits w : Nat) :
    ∃ (t : State) (n : Nat), t.fetchTicks = some n ∧ t.a = s.a ∧ t.b = s.b ∧ t.c = s.c ∧ t.z = s.z ∧
      s.withFetchWord nbits w = { t with mem := t.mem.write t.fetchAddr (tableByte nbits w) } := by
  by_cases h : s.fetchTicks.isSome = true
  · obtain ⟨n, hn⟩ := Option.isSome_iff_exists.mp h
    exact ⟨s, n, hn, rfl, rfl, rfl, rfl, by rw [State.withFetchWord, if_pos h]⟩
  · exact ⟨s.toBoundary, 4, (toBoundary_boundary s).fetchTicks, rfl, rfl, rfl, rfl,
      by rw [State.withFetchWord, if_neg h]⟩

/-- Settles O41: the fetch reads the placed byte, whose decoding is that of the word. -/
theorem placedWordIsTheNextInstructionRun : Obligations.PlacedWordIsTheNextInstructionRun := by
  intro s w hw
  obtain ⟨t, n, hn, ha, hb, hc, hz, hplaced⟩ := withFetchWord_eq s 8 w
  obtain ⟨f, hf, hir, hfa, hfb, hfc, hfz, hstep⟩ := step_of_placed hn (tableByte 8 w)
  have hbyte : (tableByte 8 w).toNat = w := by
    rw [tableByte, BitVec.toNat_ofNat]
    omega
  refine ⟨f, hf, hir ▸ hbyte, hfa.trans ha, hfb.trans hb, hfc.trans hc, hfz.trans hz, ?_, ?_⟩
  · rw [decodeTableWord_eq, hir]
  · rw [hplaced, hstep, hir]

end Sys2Proof.Machine
end

section
/-! Runs of ticks (spec/40_microsequencer.md R74, R77, R78): the execute phase as six ticks, the phase of a running core
within the ten ticks of an instruction, and the operations that tick until a state is reached. -/

namespace Sys2Proof.Machine

open Sys2Proof.Spec

theorem ticks_succ (n : Nat) (s : State) : ticks (n + 1) s = tick (ticks n s) := ticks_add n 1 s

/-! ### The execute phase as ticks -/

/-- The byte of a HLT, by its opcode (R49). -/
theorem eq_encode_hlt {b : Byte} (hop : opcodeOf b = 0xF) : b = encode (.hlt (operandOf b)) := by
  calc b = joinNibbles (opcodeOf b) (operandOf b) := (joinNibbles_split b).symm
    _ = encode (.hlt (operandOf b)) := by rw [hop]; rfl

theorem decode_of_hlt {b : Byte} (hop : opcodeOf b = 0xF) : decode b = .hlt (operandOf b) :=
  (congrArg decode (eq_encode_hlt hop)).trans (decode_encode _)

/-- With a HLT in IR the next tick freezes the core. -/
theorem tick_eq_afterHlt {f : State} (h : f.FetchDone) (hop : opcodeOf f.ir = 0xF) :
    tick f = afterHlt (operandOf f.ir) f := by
  rw [← tick_hlt_of_fetchDone _ h, ← eq_encode_hlt hop]

theorem tick_frozen {f : State} (h : f.FetchDone) (hop : opcodeOf f.ir = 0xF) : (tick f).Frozen := by
  rw [tick_eq_afterHlt h hop]
  exact afterHlt_frozen _ h

theorem rowOf_halts_of_ne {b : Byte} (hop : opcodeOf b ≠ 0xF) : (rowOf (decode b)).halts = false := by
  rw [rowOf_decode_halts, decide_eq_false hop]

/-- Right after its fetch an instruction is the next six ticks of the boards, HLT too: its first tick freezes the core
and the other five change nothing. -/
theorem exec_decode_ir {f : State} (h : f.FetchDone) : exec (decode f.ir) f = .next (ticks 6 f) := by
  by_cases hop : opcodeOf f.ir = 0xF
  case neg =>
    have hgo := rowOf_halts_of_ne hop
    rw [exec_of_fetchDone h hgo, ← ticks_six_of_fetchDone h hgo, encode_decode]
  case pos =>
    rw [decode_of_hlt hop, exec_hlt_of_fetchDone _ h, ticks, ticks_eq_self (tick_frozen h hop).tick_eq,
      tick_eq_afterHlt h hop]

/-- Without a HLT in IR the six ticks lead to the next boundary. -/
theorem ticks_six_boundary {f : State} (h : f.FetchDone) (hop : opcodeOf f.ir ≠ 0xF) : (ticks 6 f).Boundary := by
  have hnext : State.Boundary _ := afterStepFour_boundary (decode f.ir) h
  rwa [← ticks_six_of_fetchDone h (rowOf_halts_of_ne hop), encode_decode] at hnext

/-! ### The phase of a running core -/

/-- How many ticks of an instruction's ten are done, from the falling edge of micro-step 0 on; the boundary is 9. -/
def phase (s : State) : Nat := 2 * s.microStep.val + s.clk.toNat

theorem atBoundary_iff_phase (s : State) : s.atBoundary = true ↔ phase s = 9 := by
  unfold State.atBoundary phase
  generalize s.microStep = k, s.clk = l
  revert k l
  decide

theorem phase_le_nine (s : State) : phase s ≤ 9 := by
  unfold phase
  generalize s.microStep = k, s.clk = l
  revert k l
  decide

/-- Each tick of a running core is the next of the ten, and after the last comes the first. -/
theorem State.Running.phase_tick {s : State} (h : s.Running) : phase (tick s) = (phase s + 1) % 10 := by
  unfold phase
  rw [h.tick_microStep, h.tick_clk]
  generalize s.microStep = k, s.clk = l
  revert k l
  decide

theorem ticks_rstHold_zero {s : State} (h : s.rstHold = 0) (n : Nat) : (ticks n s).rstHold = 0 := by
  induction n with
  | zero => exact h
  | succ n ih =>
    rw [ticks_succ, tick_rstHold, ih]
    rfl

/-- Without a reset the halt latch is never dropped. -/
theorem halt_false_of_le {s : State} (h : s.rstHold = 0) {m n : Nat} (hle : m ≤ n) (hgo : (ticks n s).halt = false) :
    (ticks m s).halt = false := by
  induction hle with
  | refl => exact hgo
  | @step n _ ih =>
    refine ih (eq_false_of_ne_true fun hhalt => ?_)
    rw [ticks_succ, tick_halt_of_halted hhalt (ticks_rstHold_zero h n)] at hgo
    exact Bool.false_ne_true hgo.symm

/-- A core that has not halted by now has been running all along. -/
theorem ticks_running {s : State} (h : s.Running) {n : Nat} (hgo : (ticks n s).halt = false) :
    (ticks n s).Running ∧ phase (ticks n s) = (phase s + n) % 10 := by
  have ⟨_, hhold, _⟩ := h
  induction n with
  | zero => exact ⟨h, (Nat.mod_eq_of_lt (Nat.lt_succ_of_le (phase_le_nine s))).symm⟩
  | succ n ih =>
    obtain ⟨hrun, hphase⟩ := ih (halt_false_of_le hhold n.le_succ hgo)
    rw [ticks_succ] at hgo ⊢
    refine ⟨tick_running_of_not_halt (ticks_rstHold_zero hhold n) hgo, ?_⟩
    rw [hrun.phase_tick, hphase]
    omega

theorem ticks_atBoundary_iff {s : State} (h : s.Running) {n : Nat} (hgo : (ticks n s).halt = false) :
    (ticks n s).atBoundary = true ↔ (phase s + n) % 10 = 9 := by
  rw [atBoundary_iff_phase, (ticks_running h hgo).2]

theorem State.Boundary.phase {s : State} (h : s.Boundary) : phase s = 9 := by
  obtain ⟨hstep, hclk, -⟩ := h
  rw [Machine.phase, hstep, hclk]
  rfl

theorem State.FetchDone.phase {s : State} (h : s.FetchDone) : phase s = 3 := by
  obtain ⟨hstep, hclk, -⟩ := h
  rw [Machine.phase, hstep, hclk]
  rfl

/-! ### Ticking until a state is reached: the first that meets the test is answered, within the bound -/

theorem runToInstructionBoundary_eq_none {n : Nat} {s : State}
    (h : ∀ j < n, ¬(ticks (j + 1) s).atBoundary = true) : runToInstructionBoundary n s = none := by
  induction n generalizing s with
  | zero => rfl
  | succ n ih =>
    rw [runToInstructionBoundary]
    exact (if_neg (h 0 n.succ_pos)).trans (ih fun j hj => h (j + 1) (Nat.succ_lt_succ hj))

theorem runToInstructionBoundary_eq_some {n : Nat} {s : State}
    (h : ∀ j < n, ¬(ticks (j + 1) s).atBoundary = true) (hstop : (ticks (n + 1) s).atBoundary = true) :
    runToInstructionBoundary (n + 1) s = some (ticks (n + 1) s) := by
  induction n generalizing s with
  | zero => exact if_pos hstop
  | succ n ih =>
    rw [runToInstructionBoundary]
    exact (if_neg (h 0 n.succ_pos)).trans (ih (fun j hj => h (j + 1) (Nat.succ_lt_succ hj)) hstop)

theorem runToHalt_eq_none {n : Nat} {s : State} (hhold : s.rstHold = 0) (h : (ticks n s).halt = false) :
    runToHalt n s = none := by
  induction n generalizing s with
  | zero => rfl
  | succ n ih =>
    have hfirst : ¬(tick s).halt = true := ne_true_of_eq_false (halt_false_of_le (m := 1) hhold (by omega) h)
    rw [runToHalt]
    exact (if_neg hfirst).trans (ih (ticks_rstHold_zero hhold 1) h)

theorem runToHalt_eq_some {n : Nat} {s : State} (hhold : s.rstHold = 0) (h : (ticks n s).halt = false)
    (hstop : (ticks (n + 1) s).halt = true) : runToHalt (n + 1) s = some (ticks (n + 1) s) := by
  induction n generalizing s with
  | zero => exact if_pos hstop
  | succ n ih =>
    have hfirst : ¬(tick s).halt = true := ne_true_of_eq_false (halt_false_of_le (m := 1) hhold (by omega) h)
    rw [runToHalt]
    exact (if_neg hfirst).trans (ih (ticks_rstHold_zero hhold 1) h hstop)

/-- What the step, outside a fetch, ticks to. -/
abbrev State.Stopped (s : State) : Prop := (s.atBoundary || s.halt) = true

theorem ticksToStop_eq {n fuel : Nat} {s : State} (hle : n < fuel) (h : ∀ j < n, ¬(ticks (j + 1) s).Stopped)
    (hstop : (ticks (n + 1) s).Stopped) : ticksToStop fuel s = ticks (n + 1) s := by
  induction fuel generalizing n s with
  | zero => exact absurd hle n.not_lt_zero
  | succ fuel ih =>
    rw [ticksToStop]
    cases n with
    | zero => exact if_pos hstop
    | succ n =>
      exact (if_neg (h 0 n.succ_pos)).trans
        (ih (Nat.lt_of_succ_lt_succ hle) (fun j hj => h (j + 1) (Nat.succ_lt_succ hj)) hstop)

/-! ### The next boundary -/

section
variable {s : State} {n : Nat}

/-- Where the core is running still `n + 1` ticks on, at the end of the ten, the first boundary is there. -/
theorem first_boundary (h : s.Running) (hn : n < 10) (hphase : (phase s + n + 1) % 10 = 9)
    (hgo : (ticks (n + 1) s).halt = false) :
    (∀ j < n, ¬(ticks (j + 1) s).Stopped) ∧ (ticks (n + 1) s).atBoundary = true := by
  have ⟨_, hhold, _⟩ := h
  refine ⟨fun j hj hstop => ?_, (ticks_atBoundary_iff h hgo).mpr hphase⟩
  have hgoj : (ticks (j + 1) s).halt = false := halt_false_of_le hhold (by omega) hgo
  have hboundary : (ticks (j + 1) s).atBoundary = true := by simpa [State.Stopped, hgoj] using hstop
  rw [ticks_atBoundary_iff h hgoj] at hboundary
  omega

theorem runToInstructionBoundary_of_running (h : s.Running) (hn : n < 10) (hphase : (phase s + n + 1) % 10 = 9)
    (hgo : (ticks (n + 1) s).halt = false) :
    runToInstructionBoundary n s = none ∧ runToInstructionBoundary (n + 1) s = some (ticks (n + 1) s) := by
  obtain ⟨hbefore, hstop⟩ := first_boundary h hn hphase hgo
  have hnot : ∀ j < n, ¬(ticks (j + 1) s).atBoundary = true := fun j hj hb => hbefore j hj (by simp [State.Stopped, hb])
  exact ⟨runToInstructionBoundary_eq_none hnot, runToInstructionBoundary_eq_some hnot hstop⟩

end

/-- Settles O39: the frozen state is a fixed point of the tick, halted and not at a boundary. -/
theorem runOperationsOnHaltedCore : Obligations.RunOperationsOnHaltedCore := by
  intro fuel s h
  have ⟨hhalt, hclk, _⟩ := h
  refine ⟨runToInstructionBoundary_eq_none fun j _ => ?_, ?_⟩
  · rw [ticks_eq_self h.tick_eq]
    simp [State.atBoundary, hclk]
  · rw [runToHalt, h.tick_eq]
    exact if_pos hhalt

/-- Settles O21: no fetch comes next on a halted core, and its first tick meets the test of the step. -/
theorem frozenCoreIsUnchangedByTickAndStep : Obligations.FrozenCoreIsUnchangedByTickAndStep := by
  intro s h
  have ⟨hhalt, _⟩ := h
  have hnone : s.fetchTicks = none := by simp [State.fetchTicks, hhalt]
  have hstop : ticksToStop stopBound s = ticks 1 s :=
    ticksToStop_eq (by decide) (fun j hj => absurd hj j.not_lt_zero) (by simp [State.Stopped, ticks, h.tick_eq, hhalt])
  refine ⟨h.tick_eq, ?_, ?_⟩
  · rw [step_of_fetchTicks_none hnone, hstop, ticks_eq_self h.tick_eq]
  · rw [fullStep, h.tick_eq, h.tick_eq]

end Sys2Proof.Machine
end

section
/-! The step as ticks of the boards (spec/40_microsequencer.md R74, R77, R78; log 1): from every start of a fetch, from
the end of a fetch, and from every other state. -/

namespace Sys2Proof.Machine

open Sys2Proof.Spec

section
variable {s : State} {n : Nat}

/-! ### Where a fetch comes next: the ticks of the fetch, and six -/

theorem ticks_fetch_execute (h : s.fetchTicks = some n) :
    ticks (n + 6) s = ticks 6 (afterFetch s.fetchAddr s) := by
  rw [ticks_add, ticks_of_fetchTicks h]

theorem step_eq_ticks (h : s.fetchTicks = some n) : step s = .next (ticks (n + 6) s) := by
  rw [step_of_fetchTicks h, ticks_fetch_execute h, ← afterFetch_ir, exec_decode_ir (afterFetch_fetchDone _ s)]

/-- An instruction that is not a HLT ends at the next boundary. -/
theorem ticks_fetch_execute_boundary (h : s.fetchTicks = some n) (hop : opcodeOf (s.mem.read s.fetchAddr) ≠ 0xF) :
    (ticks (n + 6) s).Boundary := by
  rw [ticks_fetch_execute h]
  exact ticks_six_boundary (afterFetch_fetchDone _ s) hop

/-- A fetch comes next at four points of the ten ticks, from each of which it ends at phase 3. -/
theorem fetchTicks_phase (h : s.fetchTicks = some n) : s.Running ∧ n ≤ 4 ∧ (phase s + n) % 10 = 3 := by
  obtain ⟨hb, rfl⟩ | ⟨hrun, hstep, hclk, rfl⟩ | ⟨hrun, hstep, hclk, rfl⟩ | ⟨hrun, hstep, hclk, rfl⟩ := fetchTicks_cases h
  · have ⟨_, _, hrun⟩ := hb
    exact ⟨hrun, by omega, by rw [hb.phase]⟩
  all_goals exact ⟨hrun, by omega, by rw [phase, hstep, hclk]; rfl⟩

/-- Where a fetch comes next, `run_to_instruction_boundary` ends with the six ticks after it, and leaves what the step
leaves (R77). -/
theorem runToInstructionBoundary_of_fetchTicks (h : s.fetchTicks = some n)
    (hop : opcodeOf (s.mem.read s.fetchAddr) ≠ 0xF) :
    runToInstructionBoundary (n + 5) s = none ∧ runToInstructionBoundary (n + 6) s = some (ticks (n + 6) s) ∧
      step s = .next (ticks (n + 6) s) := by
  obtain ⟨hrun, hn, hphase⟩ := fetchTicks_phase h
  have ⟨_, _, hgo, _⟩ := ticks_fetch_execute_boundary h hop
  obtain ⟨hnone, hsome⟩ := runToInstructionBoundary_of_running (n := n + 5) hrun (by omega) (by omega) hgo
  exact ⟨hnone, hsome, step_eq_ticks h⟩

end

/-- Settles O34: the end of the fetch, and the six ticks that `exec` is from there. -/
theorem stepFromBoundaryIsTenTicks : Obligations.StepFromBoundaryIsTenTicks := by
  intro s h
  refine ⟨step_eq_ticks h.fetchTicks, ?_⟩
  rw [ticks_four_of_boundary h]
  exact step_of_boundary h

/-- Settles O36: a fetch of four ticks comes next. -/
theorem runToBoundaryTakesTenTicks : Obligations.RunToBoundaryTakesTenTicks := by
  intro s h hop
  have hcell : opcodeOf (s.mem.read s.fetchAddr) ≠ 0xF := by rwa [h.fetchAddr]
  obtain ⟨hnone, hsome, hstep⟩ := runToInstructionBoundary_of_fetchTicks h.fetchTicks hcell
  exact ⟨hnone, hsome, hstep, ticks_fetch_execute_boundary h.fetchTicks hcell⟩

/-- Settles O28: a fetch of three ticks comes next, or of two, by the clock level the reset leaves. -/
theorem firstBoundaryAfterResetInNineOrEightTicks : Obligations.FirstBoundaryAfterResetInNineOrEightTicks := by
  intro s hop r
  have hcell : opcodeOf (r.mem.read r.fetchAddr) ≠ 0xF := by rwa [hostReset_fetchAddr, hostReset_mem]
  have hfetch : r.fetchTicks = some (if r.clk then 2 else 3) := hostReset_fetchTicks s
  refine ⟨fun hclk => ?low, fun hclk => ?high⟩
  case low => exact runToInstructionBoundary_of_fetchTicks (n := 3) (by rw [hfetch, hclk]; rfl) hcell
  case high => exact runToInstructionBoundary_of_fetchTicks (n := 2) (by rw [hfetch, hclk]; rfl) hcell

/-- Settles O37: four ticks of the fetch, in which a core does not halt, and the one that freezes it. -/
theorem runToHaltTakesFiveTicks : Obligations.RunToHaltTakesFiveTicks := by
  intro s h hop
  have hfetch : ticks 4 s = afterFetch s.pc s := ticks_four_of_boundary h
  have hfetched := afterFetch_fetchDone s.pc s
  have hlast : ticks 5 s = afterHlt (operandOf (s.mem.read s.pc)) (afterFetch s.pc s) := by
    rw [ticks_succ, hfetch]
    exact tick_eq_afterHlt hfetched hop
  have hfrozen : (ticks 5 s).Frozen := hlast ▸ afterHlt_frozen _ hfetched
  have ⟨_, _, _, hhold, _⟩ := h
  have hgo : (ticks 4 s).halt = false := by rw [hfetch]; rfl
  refine ⟨runToHalt_eq_none hhold hgo, ticks 5 s, runToHalt_eq_some hhold hgo hfrozen.1, ?step, hfrozen, ?regs,
    fun x => ?cell⟩
  case step =>
    have hrest : ticks 10 s = ticks 5 s := by rw [ticks_add 5 5, ticks_eq_self hfrozen.tick_eq]
    rw [← hrest]
    exact step_eq_ticks h.fetchTicks
  case regs =>
    rw [hlast, afterHlt, ← eq_encode_hlt hop]
    rfl
  case cell => rw [hlast]; rfl

/-! ### Right after a fetch -/

theorem fetchTicks_of_fetchDone {s : State} (h : s.FetchDone) : s.fetchTicks = none := by
  obtain ⟨hstep, hclk, -⟩ := h
  simp [State.fetchTicks, State.atBoundary, hstep, hclk]

/-- Settles O40: the ticks up to the boundary are six, and those up to the halt of a HLT are one, after which five more
change nothing. -/
theorem stepAfterFetchRunsInstructionInIr : Obligations.StepAfterFetchRunsInstructionInIr := by
  intro s h
  have ⟨_, _, hrun⟩ := h
  rw [step_of_fetchTicks_none (fetchTicks_of_fetchDone h), exec_decode_ir h]
  refine congrArg Host.Outcome.next ?_
  by_cases hop : opcodeOf s.ir = 0xF
  case neg =>
    have ⟨_, _, hgo, _⟩ := ticks_six_boundary h hop
    obtain ⟨hbefore, hstop⟩ := first_boundary (n := 5) hrun (by omega) (by rw [h.phase]) hgo
    exact ticksToStop_eq (by decide) hbefore (by simp [State.Stopped, hstop])
  case pos =>
    have hfrozen : (ticks 1 s).Frozen := tick_frozen h hop
    have hstop : ticksToStop stopBound s = ticks 1 s :=
      ticksToStop_eq (by decide) (fun j hj => absurd hj j.not_lt_zero) (by simp [State.Stopped, hfrozen.1])
    rw [hstop, ticks_add 1 5, ticks_eq_self hfrozen.tick_eq]

/-! ### From every state -/

/-- A running core comes to a boundary or halts within the ten ticks of one instruction. -/
theorem running_stops {s : State} (h : s.Running) : ∃ n < 10, (ticks (n + 1) s).Stopped := by
  have hle := phase_le_nine s
  refine ⟨(18 - phase s) % 10, by omega, ?_⟩
  cases hhalt : (ticks ((18 - phase s) % 10 + 1) s).halt
  case true => simp [State.Stopped, hhalt]
  case false =>
    have hboundary := (ticks_atBoundary_iff h hhalt).mpr (by omega)
    simp [State.Stopped, hboundary]

/-- Two ticks count any pending reset down; one more has every board see the clock level, or finds the core halted. -/
theorem exists_stop (s : State) : ∃ n < 13, (ticks (n + 1) s).Stopped := by
  have hhold : (ticks 2 s).rstHold = 0 := by
    change (tick (tick s)).rstHold = 0
    rw [tick_rstHold, tick_rstHold]
    generalize s.rstHold = hold
    revert hold
    decide
  cases hhalt : (ticks 3 s).halt
  case true => exact ⟨2, by omega, by simp [State.Stopped, hhalt]⟩
  case false =>
    have hrun : (ticks 3 s).Running := tick_running_of_not_halt hhold hhalt
    obtain ⟨n, hn, hstop⟩ := running_stops hrun
    exact ⟨n + 3, by omega, hstop⟩

/-- The run of the step outside a fetch ends at the first state that meets its test, within its bound. -/
theorem ticksToStop_stopBound (s : State) :
    ∃ n < 13, ticksToStop stopBound s = ticks (n + 1) s ∧ (ticks (n + 1) s).Stopped := by
  classical
  have hex := exists_stop s
  obtain ⟨hlt, hstop⟩ := Nat.find_spec hex
  refine ⟨Nat.find hex, hlt, ticksToStop_eq (hlt.trans (by decide)) (fun j hj hs => ?_) hstop, hstop⟩
  exact Nat.find_min hex hj ⟨hj.trans hlt, hs⟩

/-- After the six ticks from the end of a fetch the core is at the boundary, or frozen since the first of them. -/
theorem ticks_six_stopped {f : State} (h : f.FetchDone) : (ticks 6 f).Stopped := by
  by_cases hop : opcodeOf f.ir = 0xF
  case neg =>
    obtain ⟨hstep, hclk, -⟩ := ticks_six_boundary h hop
    simp [State.Stopped, State.atBoundary, hstep, hclk]
  case pos =>
    have hfrozen := tick_frozen h hop
    rw [ticks, ticks_eq_self hfrozen.tick_eq]
    simp [State.Stopped, hfrozen.1]

/-- Settles O35: through a fetch at most ten ticks, from any other state at most thirteen. -/
theorem everyStepIsTicksToBoundaryOrHalt : Obligations.EveryStepIsTicksToBoundaryOrHalt := by
  intro s
  cases hfetch : s.fetchTicks
  case none =>
    obtain ⟨n, hn, hticks, hstop⟩ := ticksToStop_stopBound s
    refine ⟨n + 1, by omega, by omega, ?_, Bool.or_eq_true_iff.mp hstop⟩
    rw [step_of_fetchTicks_none hfetch, hticks]
  case some n =>
    obtain ⟨-, hn, -⟩ := fetchTicks_phase hfetch
    refine ⟨n + 6, by omega, by omega, step_eq_ticks hfetch, Bool.or_eq_true_iff.mp ?_⟩
    rw [ticks_fetch_execute hfetch]
    exact ticks_six_stopped (afterFetch_fetchDone _ s)

/-- Settles O60: a step is ticks, each of which keeps the invariant. -/
theorem stepKeepsInvariant : Obligations.StepKeepsInvariant := by
  intro s t h hstep
  obtain ⟨n, -, -, hticks, -⟩ := everyStepIsTicksToBoundaryOrHalt s
  cases hstep.symm.trans hticks
  exact ticks_inv n h

end Sys2Proof.Machine
end

section
/-! One instruction after another (spec/10_state.md R13, R17, spec/20_memory.md R39, R43, spec/43_control_transfer.md
R89, R90, spec/70_reset_and_hazards.md R117): which instruction writes each place, a store and what reads it next, and
the jump to itself. -/

namespace Sys2Proof.Machine

open Sys2Proof.Spec

/-! ### Which instruction writes each place -/

/-- The rows of the decode table that assert each capture enable in the execute phase (R64). -/
theorem controlWord_writers (i : Instr) {k : Fin 5} (hk : 2 ≤ k) (c z : Bool) :
    let g := controlWord (rowOf i) k c z
    (g.fi = true ∨ g.bi = true → i.opcode = 0x2 ∨ i.opcode = 0x3) ∧
    (g.ai = true → i.opcode = 0x1 ∨ i.opcode = 0x2 ∨ i.opcode = 0x3 ∨ i.opcode = 0x5) ∧
    (g.oi = true → i.opcode = 0xE) ∧
    (g.j = true ∨ g.ce = true → i.opcode = 0x6 ∨ i.opcode = 0x7 ∨ i.opcode = 0x8) ∧
    (g.ri = true → i.opcode = 0x4) := by
  rw [controlWord_rowOf]
  generalize i.opcode = op
  revert k op c z
  decide

/-- A place that no transfer of the execute phase changes is as it was at the end of the fetch. -/
theorem afterStepFour_keeps {α : Type} {place : State → α} {i : Instr} {s : State}
    (hframe : ∀ (t : State) (ir : Byte) (k : Fin 5),
      place { t with microStep := k } = place t ∧ place { t with ir := ir } = place t)
    (hword : ∀ (k : Fin 5) (t : State), 2 ≤ k → place (transfer (controlWord (rowOf i) k s.c s.z) t) = place t) :
    place (afterStepFour i s) = place s := by
  have htwo : place (afterStepTwo i s) = place s :=
    (hframe _ 0 2).1.trans ((hword 2 _ (by decide)).trans (hframe s (encode i) 0).2)
  have hthree : place (afterStepThree i s) = place (afterStepTwo i s) :=
    (hframe _ 0 3).1.trans (hword 3 _ (by decide))
  have hfour : place (afterStepFour i s) = place (afterStepThree i s) :=
    (hframe _ 0 4).1.trans (hword 4 _ (by decide))
  rw [hfour, hthree, htwo]

/-- A place that a transfer changes only with `enable` is written only by the instructions whose words assert it: `P` is what
these have in common. -/
theorem writer_of_afterStepFour_ne {α : Type} {place : State → α} {enable : Sig → Bool} {P : Prop} {i : Instr}
    {s : State}
    (hne : place (afterStepFour i s) ≠ place s)
    (hframe : ∀ (t : State) (ir : Byte) (k : Fin 5),
      place { t with microStep := k } = place t ∧ place { t with ir := ir } = place t)
    (htransfer : ∀ (g : Sig) (t : State), enable g = false → place (transfer g t) = place t)
    (hwriters : ∀ k : Fin 5, 2 ≤ k → enable (controlWord (rowOf i) k s.c s.z) = true → P) : P := by
  by_contra hP
  exact hne (afterStepFour_keeps hframe fun k t hk => htransfer _ t (eq_false_of_ne_true (mt (hwriters k hk) hP)))

/-- An instruction that does not halt leaves the latch as it was. -/
theorem afterStepFour_halt (i : Instr) (s : State) : (afterStepFour i s).halt = s.halt := rfl

theorem eq_hlt_of_opcode {i : Instr} (hop : i.opcode = 0xF) : i = .hlt i.operand := by
  calc i = decode (encode i) := (decode_encode i).symm
    _ = .hlt (operandOf (encode i)) := decode_of_hlt ((opcodeOf_encode i).trans hop)
    _ = .hlt i.operand := by rw [operandOf_encode]

/-- Settles O54: HLT's one tick captures nothing; any other instruction writes a place only by a transfer that asserts
its enable. -/
theorem onlyTheNamedInstructionsWriteEachPlace : Obligations.OnlyTheNamedInstructionsWriteEachPlace := by
  intro i s t h hexec
  by_cases hop : i.opcode = 0xF
  case pos =>
    rw [eq_hlt_of_opcode hop, exec_hlt_of_fetchDone _ h] at hexec
    cases hexec
    simp [afterHlt, present, hop]
  case neg =>
    have ⟨_, _, hgo, _⟩ := h
    rw [exec_of_fetchDone h (eq_false_of_ne_true (mt (rowOf_halts_iff i).mp hop))] at hexec
    cases hexec
    have hwriters (k : Fin 5) (hk : 2 ≤ k) := controlWord_writers i hk s.c s.z
    refine ⟨?flags, fun ha => ?acc, fun hout => ?out, fun hpc => ?counter, fun ⟨x, hx⟩ => ?cell, ?halt⟩
    case flags =>
      have hflags (k : Fin 5) (hk : 2 ≤ k) := (hwriters k hk).1
      rintro (hc | hz | hb)
      · exact writer_of_afterStepFour_ne (enable := Sig.fi) hc (fun _ _ _ => ⟨rfl, rfl⟩)
          (fun g t hg => by simp [transfer, hg]) fun k hk hen => hflags k hk (.inl hen)
      · exact writer_of_afterStepFour_ne (enable := Sig.fi) hz (fun _ _ _ => ⟨rfl, rfl⟩)
          (fun g t hg => by simp [transfer, hg]) fun k hk hen => hflags k hk (.inl hen)
      · exact writer_of_afterStepFour_ne (enable := Sig.bi) hb (fun _ _ _ => ⟨rfl, rfl⟩)
          (fun g t hg => by simp [transfer, hg]) fun k hk hen => hflags k hk (.inr hen)
    case acc =>
      exact writer_of_afterStepFour_ne (enable := Sig.ai) ha (fun _ _ _ => ⟨rfl, rfl⟩)
        (fun g t hg => by simp [transfer, hg]) fun k hk => let ⟨_, hacc, _⟩ := hwriters k hk; hacc
    case out =>
      exact writer_of_afterStepFour_ne (enable := Sig.oi) hout (fun _ _ _ => ⟨rfl, rfl⟩)
        (fun g t hg => by simp [transfer, hg]) fun k hk => let ⟨_, _, hout, _⟩ := hwriters k hk; hout
    case counter =>
      exact writer_of_afterStepFour_ne (enable := fun g => g.j || g.ce) hpc (fun _ _ _ => ⟨rfl, rfl⟩)
        (fun g t hg => by
          obtain ⟨hj, hce⟩ := Bool.or_eq_false_iff.mp hg
          simp [transfer, pcEdge, hj, hce])
        fun k hk hen => let ⟨_, _, _, hjump, _⟩ := hwriters k hk; hjump (Bool.or_eq_true_iff.mp hen)
    case cell =>
      have hmem : (afterStepFour i s).mem ≠ s.mem := fun heq => hx (by rw [heq])
      exact writer_of_afterStepFour_ne (enable := Sig.ri) hmem (fun _ _ _ => ⟨rfl, rfl⟩)
        (fun g t hg => by simp [transfer, hg]) fun k hk => let ⟨_, _, _, _, hstore⟩ := hwriters k hk; hstore
    case halt =>
      rw [afterStepFour_halt]
      exact iff_of_false (ne_true_of_eq_false hgo) hop

/-! ### A store and what reads it next -/

/-- The step over an STA at a boundary (R82). -/
theorem step_sta_of_boundary {s : State} {addr : Nibble} (h : s.Boundary)
    (hcell : decode (s.mem.read s.pc) = .sta addr) :
    ∃ t : State, step s = .next t ∧ t.Boundary ∧ t.pc = s.pc + 1 ∧
      ∀ x : Nibble, t.mem.read x = if x = addr then s.a else s.mem.read x := by
  obtain ⟨-, -, t, hexec, hboundary, -, hregs, hstored, hothers, -⟩ :=
    staStoresAccumulator addr (afterFetch s.pc s) (afterFetch_fetchDone _ s)
  refine ⟨t, by rw [step_of_boundary h, hcell, hexec], hboundary, congrArg Regs.pc hregs, fun x => ?_⟩
  split
  next hx => rw [hx]; exact hstored
  next hx => exact hothers x hx

/-- Settles O55: PC addresses the stored cell when the next fetch reads it. -/
theorem storeToNextCellIsTheNextInstruction : Obligations.StoreToNextCellIsTheNextInstruction := by
  intro s addr h hcell haddr
  obtain ⟨t, hstep, hboundary, hpc, hmem⟩ := step_sta_of_boundary h hcell
  have hnext : t.mem.read t.pc = s.a := by rw [hmem, hpc, haddr, if_pos rfl]
  have hstep' := step_of_boundary hboundary
  rw [← ticks_four_of_boundary hboundary, hnext] at hstep'
  refine ⟨t, ticks 4 t, hstep, hboundary, rfl, ?_, hstep'⟩
  rw [ticks_four_of_boundary hboundary]
  exact hnext

/-- Settles O56: the LDA reads the memory the STA has left. -/
theorem loadAfterStoreReadsMostRecentWrite : Obligations.LoadAfterStoreReadsMostRecentWrite := by
  intro s t x y h hcell hstep hload
  obtain ⟨t', hstep', hboundary, -, hmem⟩ := step_sta_of_boundary h hcell
  cases hstep.symm.trans hstep'
  obtain ⟨-, -, u, hexec, -, -, hregs, -⟩ :=
    ldaLoadsTheAddressedCell y (afterFetch t.pc t) (afterFetch_fetchDone _ t)
  refine ⟨u, by rw [step_of_boundary hboundary, hload, hexec], ?_⟩
  rw [← hmem]
  exact congrArg Regs.a hregs

/-! ### The jump to itself -/

/-- One turn of the loop: ten ticks lead from its boundary back to it (R90). -/
theorem ticks_ten_of_jmp_self {s : State} (h : s.Boundary) (hcell : decode (s.mem.read s.pc) = .jmp s.pc) :
    (ticks 10 s).Boundary ∧ (ticks 10 s).pc = s.pc ∧ ∀ x : Nibble, (ticks 10 s).mem.read x = s.mem.read x := by
  obtain ⟨-, -, t, hexec, hboundary, -, hregs, hmem⟩ :=
    jmpLoadsProgramCounter s.pc (afterFetch s.pc s) (afterFetch_fetchDone _ s)
  have hstep := step_of_boundary h
  rw [hcell, hexec, step_eq_ticks h.fetchTicks] at hstep
  have hpc : t.pc = s.pc := congrArg Regs.pc hregs
  rw [Host.Outcome.next.inj hstep]
  exact ⟨hboundary, hpc, hmem⟩

/-- After any number of turns the core is running. -/
theorem ticks_turns_of_jmp_self {s : State} (n : Nat) (h : s.Boundary) (hcell : decode (s.mem.read s.pc) = .jmp s.pc) :
    (ticks (10 * n) s).halt = false := by
  induction n generalizing s with
  | zero =>
    obtain ⟨-, -, hgo, -⟩ := h
    exact hgo
  | succ n ih =>
    obtain ⟨hboundary, hpc, hmem⟩ := ticks_ten_of_jmp_self h hcell
    rw [Nat.mul_succ, Nat.add_comm, ticks_add]
    exact ih hboundary (by rw [hpc, hmem, hcell])

/-- Settles O38: the loop is never halted at the end of a turn, so it is halted nowhere before. -/
theorem jmpToItselfNeverHalts : Obligations.JmpToItselfNeverHalts := by
  intro fuel s h hcell
  have ⟨_, _, _, hhold, _⟩ := h
  obtain ⟨hboundary, hpc, hmem⟩ := ticks_ten_of_jmp_self h hcell
  have hgo : (ticks fuel s).halt = false := halt_false_of_le hhold (by omega) (ticks_turns_of_jmp_self fuel h hcell)
  exact ⟨runToHalt_eq_none hhold hgo, ticks 10 s, step_eq_ticks h.fetchTicks, hboundary, hpc, hmem⟩

end Sys2Proof.Machine
end
